-- ==== Sys2Proof/Config.lean ====
section
/-! DEFINITION. The configuration of an instance: its variant, and the widths and sizes that follow from it
(spec 00_scope R2, R5; 30_encoding R57). -/

namespace Sys2Proof

/-- `VARIANT`: which of the two algorithms an instance computes, fixed when it is instantiated (R2, R22). -/
inductive Variant
  | xxh32
  | xxh64
deriving DecidableEq, Repr

/-- `W`: the width in bits of seed, lanes, running hash and digest (R2). -/
abbrev Variant.width : Variant → Nat
  | .xxh32 => 32
  | .xxh64 => 64

/-- `B`: the block size in bytes (R2). -/
def Variant.blockBytes : Variant → Nat
  | .xxh32 => 16
  | .xxh64 => 32

/-- `WB`: the size of a lane word in bytes (R2). -/
def Variant.wordBytes : Variant → Nat
  | .xxh32 => 4
  | .xxh64 => 8

/-- `NL`: the number of lanes (R2). -/
def Variant.laneCount : Variant → Nat
  | .xxh32 => 4
  | .xxh64 => 4

/-- `RESCAP`: the capacity of the residual buffer, `B − 1` (R2). -/
def Variant.resCap : Variant → Nat
  | .xxh32 => 15
  | .xxh64 => 31

/-- The width of FINALIZE's `TL` field, `log2(B)` bits (R57). -/
def Variant.tlBits : Variant → Nat
  | .xxh32 => 4
  | .xxh64 => 5

end Sys2Proof
end

