-- ==== Sys2Proof/Word.lean ====
section
/-! DEFINITION. The machine's bytes and command words (spec 00_scope R6, 30_encoding R52). -/

namespace Sys2Proof

/-- An octet (R6). -/
abbrev Byte := BitVec 8

/-- A 32-bit command word (R52). -/
abbrev CmdWord := BitVec 32

/-- A value of the variant's width `W` (R7). -/
abbrev Variant.Word (v : Variant) := BitVec v.width

end Sys2Proof
end

