-- ==== Sys2Proof/Machine/Arith.lean ====
section
/-! DEFINITION. The constants of the datapath and its operators on `W`-bit values (spec 00_scope R7, R8; 40_block_mixer
R67, R68). `+`, `-` and `*` are those of `BitVec W`, modulo `2^W` (R7). -/

namespace Sys2Proof.Machine

open Sys2Proof

/-- `P1` (R67). -/
def P1 : (v : Variant) → v.Word
  | .xxh32 => 0x9E3779B1#32
  | .xxh64 => 0x9E3779B185EBCA87#64

/-- `P2` (R67). -/
def P2 : (v : Variant) → v.Word
  | .xxh32 => 0x85EBCA77#32
  | .xxh64 => 0xC2B2AE3D27D4EB4F#64

/-- `P3` (R67). -/
def P3 : (v : Variant) → v.Word
  | .xxh32 => 0xC2B2AE3D#32
  | .xxh64 => 0x165667B19E3779F9#64

/-- `P4` (R67). -/
def P4 : (v : Variant) → v.Word
  | .xxh32 => 0x27D4EB2F#32
  | .xxh64 => 0x85EBCA77C2B2AE63#64

/-- `P5` (R67). -/
def P5 : (v : Variant) → v.Word
  | .xxh32 => 0x165667B1#32
  | .xxh64 => 0x27D4EB2F165667C5#64

/-- `RR`, the rotation of the lane round (R68). -/
def roundRotation : Variant → Nat
  | .xxh32 => 13
  | .xxh64 => 31

/-- The rotation of the tail's 4-byte step (R68). -/
def tail4Rotation : Variant → Nat
  | .xxh32 => 17
  | .xxh64 => 23

/-- The three shifts of the avalanche (R68). -/
def avalancheShifts : Variant → Nat × Nat × Nat
  | .xxh32 => (15, 13, 16)
  | .xxh64 => (33, 29, 32)

/-- `rotl_W(x, r)`: `((x << r) | (x >>> (W − r)))[W−1:0]`, for `0 < r < W` (R8). -/
def rotl {W : Nat} (x : BitVec W) (r : Nat) : BitVec W := (x <<< r) ||| (x >>> (W - r))

/-- `h ^ (h >>> s)`, the diffusion step of the avalanche (R88, R89). -/
def xorShift {W : Nat} (h : BitVec W) (s : Nat) : BitVec W := h ^^^ (h >>> s)

end Sys2Proof.Machine
end

