-- ==== Sys2Proof/Syntax.lean ====
section
/-! DEFINITION. The commands: the ten operations and eight primitive types a command word names (spec 30_encoding R53,
R54), and `Instr`, one constructor per row of spec/opcode_table.json with the operands of R57. -/

namespace Sys2Proof

/-- The scalar types of R54. -/
inductive PrimType
  | bool
  | byte
  | char
  | short
  | int
  | long
  | float
  | double
deriving DecidableEq, Repr

/-- What a command word alone says: the operation, with its primitive type where it has one (R53, R59). -/
inductive Command
  | create
  | reset
  | dispose
  | updateBytes
  | update (t : PrimType)
  | digest
  | oneshot
  | mix
  | finalize
  | encode (t : PrimType)
deriving DecidableEq, Repr

/-- A command with its operand record (R57). A command with `W`-bit operands carries the variant whose record it was
read in (log 9). `N` and `TL` are the lengths of `data` and `tail`. -/
inductive Instr
  | create (v : Variant) (seed : v.Word)
  | reset (v : Variant) (seed : v.Word)
  | dispose
  | updateBytes (data : List Byte)
  | updateBool (val : BitVec 1)
  | updateByte (val : BitVec 8)
  | updateChar (val : BitVec 16)
  | updateShort (val : BitVec 16)
  | updateInt (val : BitVec 32)
  | updateLong (val : BitVec 64)
  | updateFloat (val : BitVec 32)
  | updateDouble (val : BitVec 64)
  | digest
  | oneshot (v : Variant) (seed : v.Word) (data : List Byte)
  | mix (v : Variant) (a1 a2 a3 a4 : v.Word) (blk : List Byte)
  | finalize (v : Variant) (a1 a2 a3 a4 : v.Word) (tot : BitVec 64) (tail : List Byte) (seed : v.Word)
  | encodeBool (val : BitVec 1)
  | encodeByte (val : BitVec 8)
  | encodeChar (val : BitVec 16)
  | encodeShort (val : BitVec 16)
  | encodeInt (val : BitVec 32)
  | encodeLong (val : BitVec 64)
  | encodeFloat (val : BitVec 32)
  | encodeDouble (val : BitVec 64)
deriving DecidableEq, Repr

/-- The command a term of `Instr` is an instance of. -/
def Instr.command : Instr → Command
  | .create _ _ => .create
  | .reset _ _ => .reset
  | .dispose => .dispose
  | .updateBytes _ => .updateBytes
  | .updateBool _ => .update .bool
  | .updateByte _ => .update .byte
  | .updateChar _ => .update .char
  | .updateShort _ => .update .short
  | .updateInt _ => .update .int
  | .updateLong _ => .update .long
  | .updateFloat _ => .update .float
  | .updateDouble _ => .update .double
  | .digest => .digest
  | .oneshot _ _ _ => .oneshot
  | .mix _ _ _ _ _ _ => .mix
  | .finalize _ _ _ _ _ _ _ _ => .finalize
  | .encodeBool _ => .encode .bool
  | .encodeByte _ => .encode .byte
  | .encodeChar _ => .encode .char
  | .encodeShort _ => .encode .short
  | .encodeInt _ => .encode .int
  | .encodeLong _ => .encode .long
  | .encodeFloat _ => .encode .float
  | .encodeDouble _ => .encode .double

end Sys2Proof
end

