-- ==== Sys2Proof/WellFormed.lean ====
section
/-! DEFINITION. Which terms of `Instr` are operand records the port of an instance can carry (spec 30_encoding R56,
R57, R61). -/

namespace Sys2Proof

/-- A byte sequence's length fits its 64-bit field `N` (R56). -/
def fitsLength (data : List Byte) : Bool := decide (data.length < 2 ^ 64)

/-- `BLK` is exactly `B` bytes (R57). -/
def fitsBlock (v : Variant) (blk : List Byte) : Bool := decide (blk.length = v.blockBytes)

/-- `TL` is at most `B − 1` (R57). -/
def fitsTail (v : Variant) (tail : List Byte) : Bool := decide (tail.length ≤ v.resCap)

/-- The command fits the operand format of an instance of variant `w`: its `W`-bit fields are of that variant's width,
and its byte sequences have lengths their length fields can say (R56, R57). -/
def WellFormed (w : Variant) : Instr → Bool
  | .create v _ => decide (v = w)
  | .reset v _ => decide (v = w)
  | .dispose => true
  | .updateBytes data => fitsLength data
  | .updateBool _ => true
  | .updateByte _ => true
  | .updateChar _ => true
  | .updateShort _ => true
  | .updateInt _ => true
  | .updateLong _ => true
  | .updateFloat _ => true
  | .updateDouble _ => true
  | .digest => true
  | .oneshot v _ data => decide (v = w) && fitsLength data
  | .mix v _ _ _ _ blk => decide (v = w) && fitsBlock v blk
  | .finalize v _ _ _ _ _ tail _ => decide (v = w) && fitsTail v tail
  | .encodeBool _ => true
  | .encodeByte _ => true
  | .encodeChar _ => true
  | .encodeShort _ => true
  | .encodeInt _ => true
  | .encodeLong _ => true
  | .encodeFloat _ => true
  | .encodeDouble _ => true

end Sys2Proof
end

