-- ==== Sys2Proof/Decode.lean ====
section
/-! DEFINITION. Decoding a command word and its operand record, total on any bits, and the encoder (spec 30_encoding
R52 to R61). The operand record is the bit string of its fields in order, each least significant bit first, nothing
between them (log 3). -/

namespace Sys2Proof

/-! ## The command word -/

/-- `OP`, bits 7 to 0 (R52). -/
def opField (w : CmdWord) : BitVec 8 := w.extractLsb' 0 8

/-- `PT`, bits 11 to 8 (R52). -/
def ptField (w : CmdWord) : BitVec 4 := w.extractLsb' 8 4

/-- `RSV`, bits 31 to 12 (R52). -/
def rsvField (w : CmdWord) : BitVec 20 := w.extractLsb' 12 20

/-- The type with code `PT`; the codes 8 to 15 are reserved (R54). -/
def primOfCode (pt : BitVec 4) : Option PrimType :=
  match pt.toNat with
  | 0 => some .bool
  | 1 => some .byte
  | 2 => some .char
  | 3 => some .short
  | 4 => some .int
  | 5 => some .long
  | 6 => some .float
  | 7 => some .double
  | _ => none

/-- The operation of an `OP` that takes no primitive type (R53). -/
def untypedOp (op : BitVec 8) : Option Command :=
  match op.toNat with
  | 0x01 => some .create
  | 0x02 => some .reset
  | 0x03 => some .dispose
  | 0x10 => some .updateBytes
  | 0x20 => some .digest
  | 0x21 => some .oneshot
  | 0x30 => some .mix
  | 0x31 => some .finalize
  | _ => none

/-- `decode` of R59; `none` is `ILLEGAL`. -/
def decodeWord (w : CmdWord) : Option Command :=
  if rsvField w ≠ 0 then none
  else if opField w = 0x11 then (primOfCode (ptField w)).map .update
  else if opField w = 0x32 then (primOfCode (ptField w)).map .encode
  else if ptField w ≠ 0 then none
  else untypedOp (opField w)

/-- The code of a type in `PT` (R54). -/
def primCode : PrimType → BitVec 4
  | .bool => 0
  | .byte => 1
  | .char => 2
  | .short => 3
  | .int => 4
  | .long => 5
  | .float => 6
  | .double => 7

/-- The `OP` of a command (R53). -/
def opOf : Command → BitVec 8
  | .create => 0x01
  | .reset => 0x02
  | .dispose => 0x03
  | .updateBytes => 0x10
  | .update _ => 0x11
  | .digest => 0x20
  | .oneshot => 0x21
  | .mix => 0x30
  | .finalize => 0x31
  | .encode _ => 0x32

/-- The `PT` of a command: its type's code, or 0 (R52). -/
def ptOf : Command → BitVec 4
  | .update t => primCode t
  | .encode t => primCode t
  | .create => 0
  | .reset => 0
  | .dispose => 0
  | .updateBytes => 0
  | .digest => 0
  | .oneshot => 0
  | .mix => 0
  | .finalize => 0

/-- The command word of a command, laid out as R52 says: `RSV` 0, then `PT`, then `OP`. -/
def encodeWord (c : Command) : CmdWord := (0 : BitVec 20) ++ ptOf c ++ opOf c

/-! ## Fields of the operand record -/

/-- The `n` low bits of `x`, least significant first. -/
def bitsOfNat : Nat → Nat → List Bool
  | 0, _ => []
  | n + 1, x => (x % 2 == 1) :: bitsOfNat n (x / 2)

/-- The number whose bits are listed, least significant first. -/
def natOfBits : List Bool → Nat
  | [] => 0
  | b :: bs => b.toNat + 2 * natOfBits bs

/-- The bits of a field of `n` bits. -/
def fieldBits {n : Nat} (x : BitVec n) : List Bool := bitsOfNat n x.toNat

/-- The bits of a byte sequence, byte after byte in stream order (R9, R56). -/
def bytesBits : List Byte → List Bool
  | [] => []
  | b :: bs => fieldBits b ++ bytesBits bs

/-- A field of `n` bits at the front of a record, and the rest. -/
def readField (n : Nat) (bs : List Bool) : Option (BitVec n × List Bool) :=
  if n ≤ bs.length then some (BitVec.ofNat n (natOfBits (bs.take n)), bs.drop n) else none

/-- `n` bytes at the front of a record, and the rest. -/
def readBytes : Nat → List Bool → Option (List Byte × List Bool)
  | 0, bs => some ([], bs)
  | n + 1, bs =>
    match readField 8 bs with
    | none => none
    | some (b, rest) =>
      match readBytes n rest with
      | none => none
      | some (data, rest') => some (b :: data, rest')

/-- A length field of `n` bits and that many bytes (R56, R57). -/
def readSized (n : Nat) (bs : List Bool) : Option (List Byte × List Bool) :=
  match readField n bs with
  | none => none
  | some (len, rest) => readBytes len.toNat rest

/-- Four `W`-bit lanes (R57). -/
def readLanes (v : Variant) (bs : List Bool) : Option ((v.Word × v.Word × v.Word × v.Word) × List Bool) :=
  match readField v.width bs with
  | none => none
  | some (a1, r1) =>
    match readField v.width r1 with
    | none => none
    | some (a2, r2) =>
      match readField v.width r2 with
      | none => none
      | some (a3, r3) =>
        match readField v.width r3 with
        | none => none
        | some (a4, r4) => some ((a1, a2, a3, a4), r4)

/-- A record that is one field of `n` bits, the operand of a command. -/
def readOne (n : Nat) (f : BitVec n → Instr) (bs : List Bool) : Option (Instr × List Bool) :=
  (readField n bs).map fun p => (f p.1, p.2)

/-- The operands of each command at an instance of variant `v`, in the order of R57, and the bits left over. -/
def readOperands (v : Variant) : Command → List Bool → Option (Instr × List Bool)
  | .create, bs => readOne v.width (.create v) bs
  | .reset, bs => readOne v.width (.reset v) bs
  | .dispose, bs => some (.dispose, bs)
  | .updateBytes, bs => (readSized 64 bs).map fun p => (.updateBytes p.1, p.2)
  | .update .bool, bs => readOne 1 .updateBool bs
  | .update .byte, bs => readOne 8 .updateByte bs
  | .update .char, bs => readOne 16 .updateChar bs
  | .update .short, bs => readOne 16 .updateShort bs
  | .update .int, bs => readOne 32 .updateInt bs
  | .update .long, bs => readOne 64 .updateLong bs
  | .update .float, bs => readOne 32 .updateFloat bs
  | .update .double, bs => readOne 64 .updateDouble bs
  | .digest, bs => some (.digest, bs)
  | .oneshot, bs =>
    match readField v.width bs with
    | none => none
    | some (seed, rest) => (readSized 64 rest).map fun p => (.oneshot v seed p.1, p.2)
  | .mix, bs =>
    match readLanes v bs with
    | none => none
    | some ((a1, a2, a3, a4), rest) =>
      (readBytes v.blockBytes rest).map fun p => (.mix v a1 a2 a3 a4 p.1, p.2)
  | .finalize, bs =>
    match readLanes v bs with
    | none => none
    | some ((a1, a2, a3, a4), r1) =>
      match readField 64 r1 with
      | none => none
      | some (tot, r2) =>
        match readSized v.tlBits r2 with
        | none => none
        | some (tail, r3) =>
          (readField v.width r3).map fun p => (.finalize v a1 a2 a3 a4 tot tail p.1, p.2)
  | .encode .bool, bs => readOne 1 .encodeBool bs
  | .encode .byte, bs => readOne 8 .encodeByte bs
  | .encode .char, bs => readOne 16 .encodeChar bs
  | .encode .short, bs => readOne 16 .encodeShort bs
  | .encode .int, bs => readOne 32 .encodeInt bs
  | .encode .long, bs => readOne 64 .encodeLong bs
  | .encode .float, bs => readOne 32 .encodeFloat bs
  | .encode .double, bs => readOne 64 .encodeDouble bs

/-! ## Decoding and encoding a transaction -/

/-- Why a transaction is no command. -/
inductive DecodeError
  /-- The command word is `ILLEGAL` (R59, R60); its operand record is not read (R128). -/
  | illegalCommand
  /-- The word is a command's, and the operand record is not of that command's form (R57; log 4). -/
  | malformedRecord
deriving DecidableEq, Repr

/-- The command an instance of variant `v` reads from a command word and an operand record: the word by R59, then the
whole record by R57. -/
def decode (v : Variant) (w : CmdWord) (record : List Bool) : Except DecodeError Instr :=
  match decodeWord w with
  | none => .error .illegalCommand
  | some c =>
    match readOperands v c record with
    | some (i, []) => .ok i
    | some (_, _ :: _) => .error .malformedRecord
    | none => .error .malformedRecord

/-- The bits of four lanes. -/
def lanesBits {n : Nat} (a1 a2 a3 a4 : BitVec n) : List Bool :=
  fieldBits a1 ++ (fieldBits a2 ++ (fieldBits a3 ++ fieldBits a4))

/-- The bits of a byte sequence after its length field of `n` bits. -/
def sizedBits (n : Nat) (data : List Byte) : List Bool :=
  fieldBits (BitVec.ofNat n data.length) ++ bytesBits data

/-- The operand record of a command (R57). -/
def operandBits : Instr → List Bool
  | .create _ seed => fieldBits seed
  | .reset _ seed => fieldBits seed
  | .dispose => []
  | .updateBytes data => sizedBits 64 data
  | .updateBool val => fieldBits val
  | .updateByte val => fieldBits val
  | .updateChar val => fieldBits val
  | .updateShort val => fieldBits val
  | .updateInt val => fieldBits val
  | .updateLong val => fieldBits val
  | .updateFloat val => fieldBits val
  | .updateDouble val => fieldBits val
  | .digest => []
  | .oneshot _ seed data => fieldBits seed ++ sizedBits 64 data
  | .mix _ a1 a2 a3 a4 blk => lanesBits a1 a2 a3 a4 ++ bytesBits blk
  | .finalize v a1 a2 a3 a4 tot tail seed =>
    lanesBits a1 a2 a3 a4 ++ (fieldBits tot ++ (sizedBits v.tlBits tail ++ fieldBits seed))
  | .encodeBool val => fieldBits val
  | .encodeByte val => fieldBits val
  | .encodeChar val => fieldBits val
  | .encodeShort val => fieldBits val
  | .encodeInt val => fieldBits val
  | .encodeLong val => fieldBits val
  | .encodeFloat val => fieldBits val
  | .encodeDouble val => fieldBits val

/-- The command word and operand record of a command. -/
def encode (i : Instr) : CmdWord × List Bool := (encodeWord i.command, operandBits i)

/-! ## Table words -/

/-- The length in bits of a command's operand record when every length field in it is 0 (R57). -/
def emptyRecordBits (v : Variant) : Command → Nat
  | .create => v.width
  | .reset => v.width
  | .dispose => 0
  | .updateBytes => 64
  | .update .bool => 1
  | .update .byte => 8
  | .update .char => 16
  | .update .short => 16
  | .update .int => 32
  | .update .long => 64
  | .update .float => 32
  | .update .double => 64
  | .digest => 0
  | .oneshot => v.width + 64
  | .mix => 4 * v.width + 8 * v.blockBytes
  | .finalize => 4 * v.width + 64 + v.tlBits + v.width
  | .encode .bool => 1
  | .encode .byte => 8
  | .encode .char => 16
  | .encode .short => 16
  | .encode .int => 32
  | .encode .long => 64
  | .encode .float => 32
  | .encode .double => 64

/-- An instruction numbered as the opcode table numbers it, as a transaction: bits 31 to 0 are the command word, and the
bits from 32 up are the operand record, as long as the command's record with empty byte sequences (log 11). -/
def tableTransaction (v : Variant) (nbits w : Nat) : CmdWord × List Bool :=
  let bits := w % 2 ^ nbits
  let word := BitVec.ofNat 32 bits
  match decodeWord word with
  | none => (word, [])
  | some c => (word, bitsOfNat (emptyRecordBits v c) (bits / 2 ^ 32))

/-- The instruction the decoder of an XXH64 instance reads from a table word (log 11). -/
def decodeTableWord (nbits w : Nat) : Option Instr :=
  match decode .xxh64 (tableTransaction .xxh64 nbits w).1 (tableTransaction .xxh64 nbits w).2 with
  | .ok i => some i
  | .error _ => none

end Sys2Proof
end

