-- ==== Sys2Proof/Machine/State.lean ====
section
/-! DEFINITION. The state: the instances of the block, the host's pending transactions and the replies given
(spec 10_state R14, 60_exceptions R139, 70_reset_and_hazards R152), the reasons a step can stop, and the state at
power-on (R26, R144). -/

namespace Sys2Proof.Machine

open Sys2Proof

/-- `LIFE` (R14, R16). -/
inductive Life
  /-- Bit 0: no live hasher. -/
  | destroyed
  /-- Bit 1: created with a seed and not yet disposed. -/
  | active
deriving DecidableEq, Repr

/-- An accumulator set: four values of `W` bits (R18). -/
structure Lanes (W : Nat) where
  v1 : BitVec W
  v2 : BitVec W
  v3 : BitVec W
  v4 : BitVec W
deriving DecidableEq, Repr

/-- The state elements of one instance whose variant has width `W` (R14). -/
structure Hasher (W : Nat) where
  /-- `LIFE`. -/
  life : Life
  /-- `SEED`. -/
  seed : BitVec W
  /-- `V1` to `V4`. -/
  lanes : Lanes W
  /-- `RES`, the residual buffer, first byte received first. -/
  res : List Byte
  /-- `TOTAL`, the total length counter. -/
  total : BitVec 64
deriving DecidableEq, Repr

/-- One instance of the block: its variant, fixed (R2, R22), and its state elements. The spec's word
"instance" is this type's `Block`. -/
structure Block where
  variant : Variant
  hasher : Hasher variant.width
deriving DecidableEq, Repr

/-- The status names of R127. The codes 5 to 255 are reserved and have no name. -/
inductive Status
  | ok
  | invalidState
  | illegalCommand
  /-- Never produced by the block (R127). -/
  | invalidArgument
  /-- Never produced by the block (R127). -/
  | outOfRange
deriving DecidableEq, Repr

/-- The results a response carries (R58). -/
inductive Result
  /-- `D`, of DIGEST, ONESHOT and FINALIZE. -/
  | digest (v : Variant) (d : v.Word)
  /-- `A1'` to `A4'`, of MIX. -/
  | lanes (v : Variant) (a : Lanes v.width)
  /-- `BYTES`, of ENCODE.T. -/
  | bytes (data : List Byte)
deriving DecidableEq, Repr

/-- A response record (R58). -/
structure Response where
  status : Status
  result : Option Result
deriving DecidableEq, Repr

/-- What the host presents: a command word and an operand record, at the port of an instance (R51, R139). -/
structure Transaction where
  port : Nat
  word : CmdWord
  record : List Bool
deriving DecidableEq, Repr

/-- A response record, with the port it was given at. -/
structure Reply where
  port : Nat
  response : Response
deriving DecidableEq, Repr

/-- The platform: its instances, in port order `before ++ here :: after`, of which `here` is the one the current
command is presented to (R139); and the two sides of the host's port, which are no state of the block (R24, R28; log 5). -/
structure State where
  before : List Block
  here : Block
  after : List Block
  /-- The transactions the host has yet to present, the next one first. -/
  pending : List Transaction
  /-- The replies given so far, the oldest first (R152). -/
  responses : List Reply
deriving DecidableEq, Repr

/-- Reasons the machine stops. -/
inductive Fault
  /-- Raised by the step when the next transaction is for a port that no instance has; the spec gives no such host a
  move (R139; log 4). Safe. -/
  | noSuchPort
deriving DecidableEq, Repr

/-- Reasons the model has no move. -/
inductive Refusal
  /-- Raised by an arm of exec whose instruction has no meaning yet; no arm raises it. Safe. -/
  | notModelled (mnemonic : String)
  /-- Raised by the step or a meaning when the operands are not of the form R57 gives, which a host cannot present
  (R56, 93 U14; log 4). Safe. -/
  | malformedRecord
deriving DecidableEq, Repr

/-- An instance at power-on: `LIFE` is 0 (R26, R144); the elements the spec leaves unspecified are 0 and empty
(DESIGN CHOICE, log 2). -/
def Block.powerOn (v : Variant) : Block where
  variant := v
  hasher :=
    { life := .destroyed
      seed := 0
      lanes := { v1 := 0, v2 := 0, v3 := 0, v4 := 0 }
      res := []
      total := 0 }

/-- The platform at power-on: one XXH64 instance at port 0, one XXH32 instance at port 1 (DESIGN CHOICE, log 1), waiting
for a first command (R144). -/
def State.reset : State where
  before := []
  here := Block.powerOn .xxh64
  after := [Block.powerOn .xxh32]
  pending := []
  responses := []

end Sys2Proof.Machine
end

