-- ==== Sys2Proof/Machine/Flags.lean ====
section
/-! DEFINITION. The block has no flags or condition codes (spec 10_state R24): what stands in their place is the
`STATUS` of a response. -/

namespace Sys2Proof.Machine

/-- The 8-bit `STATUS` codes (R127). -/
def Status.code : Status → BitVec 8
  | .ok => 0
  | .invalidState => 1
  | .illegalCommand => 2
  | .invalidArgument => 3
  | .outOfRange => 4

/-- The bit `LIFE` (R14). -/
def Life.bit : Life → BitVec 1
  | .destroyed => 0
  | .active => 1

end Sys2Proof.Machine
end

