-- ==== Sys2Proof/Machine/Operands.lean ====
section
/-! DEFINITION. Byte sequences as operands: the little-endian word of a sequence and the bytes of a word, consuming a
sequence in units, and the encodings of primitive values (spec 00_scope R9, R10; 20_memory R32 to R37;
44_primitive_encoder R105). -/

namespace Sys2Proof.Machine

open Sys2Proof

/-- The sum of `s[k] · 2^(8k)` over a whole sequence. -/
def leNat : List Byte → Nat
  | [] => 0
  | b :: bs => b.toNat + 256 * leNat bs

/-- `LE(s, i, n)`, for `i + n ≤ len(s)` (R10). -/
def leWord (s : List Byte) (i n : Nat) : Nat := leNat ((s.drop i).take n)

/-- `LEbytes(v, n)`, of the value `v` (R10). -/
def leBytes : (n : Nat) → Nat → List Byte
  | 0, _ => []
  | n + 1, x => BitVec.ofNat 8 x :: leBytes n (x / 256)

/-- `while len(s) >= n`: take the first `n` bytes of `s` into `a` by `f`, and drop them; at most `fuel` times. -/
def eatFuel {α : Type} (n : Nat) (f : α → List Byte → α) : Nat → α → List Byte → α × List Byte
  | 0, a, s => (a, s)
  | fuel + 1, a, s => if n ≤ s.length then eatFuel n f fuel (f a (s.take n)) (s.drop n) else (a, s)

/-- The loop "while len(s) >= n" of R90, R91, R94 and R103: what has been made of the whole units of `n` bytes (`n > 0`),
front to back, and the remainder of the sequence. The sequence's own length is fuel enough. -/
def eat {α : Type} (n : Nat) (f : α → List Byte → α) (a : α) (s : List Byte) : α × List Byte :=
  eatFuel n f s.length a s

/-! ## `Enc_T` (R105): the pattern's bytes, least significant first, with no arithmetic on it. -/

/-- `Enc_BOOL`: one byte, 0 or 1 (R106). -/
def encBool (val : BitVec 1) : List Byte := [val.setWidth 8]

/-- `Enc_BYTE` (R107). -/
def encByte (val : BitVec 8) : List Byte := leBytes 1 val.toNat

/-- `Enc_CHAR` (R108). -/
def encChar (val : BitVec 16) : List Byte := leBytes 2 val.toNat

/-- `Enc_SHORT` (R109). -/
def encShort (val : BitVec 16) : List Byte := leBytes 2 val.toNat

/-- `Enc_INT` (R110). -/
def encInt (val : BitVec 32) : List Byte := leBytes 4 val.toNat

/-- `Enc_LONG` (R111). -/
def encLong (val : BitVec 64) : List Byte := leBytes 8 val.toNat

/-- `Enc_FLOAT` (R112): the binary32 pattern as given. -/
def encFloat (val : BitVec 32) : List Byte := leBytes 4 val.toNat

/-- `Enc_DOUBLE` (R113): the binary64 pattern as given. -/
def encDouble (val : BitVec 64) : List Byte := leBytes 8 val.toNat

end Sys2Proof.Machine
end

