-- ==== Sys2Proof/Machine/Ops.lean ====
section
/-! DEFINITION. The shared operations of every command: the instance addressed, answering (R11 `respond`), reporting an
error (R11 `raise`, R131), the lifecycle check (R129), and presenting the host's next transaction (R51, R139).
Reporting an error is the block's only exception: there is no trap entry, no saved state and no return (R133, R134). -/

namespace Sys2Proof.Machine

open Sys2Proof

/-- The instances in port order (R139). -/
def State.instances (s : State) : List Block := s.before ++ s.here :: s.after

/-- The port of the addressed instance. -/
def State.port (s : State) : Nat := s.before.length

/-- The replies given at one port, the oldest first. -/
def State.repliesAt (s : State) (p : Nat) : List Response :=
  (s.responses.filter (fun r => r.port == p)).map (·.response)

/-- Address the instance at port `p`, where there is one (R139). -/
def State.select (s : State) (p : Nat) : Option State :=
  match s.instances[p]? with
  | none => none
  | some b => some { s with before := s.instances.take p, here := b, after := s.instances.drop (p + 1) }

/-- Give a response record at the addressed instance's port (R51, R58). -/
def State.respond (s : State) (r : Response) : State :=
  { s with responses := s.responses ++ [{ port := s.port, response := r }] }

/-- End a command that completed: the addressed instance becomes `b`, the response is OK with the command's result
(R11 `respond(OK, result)`). -/
def State.complete (s : State) (b : Block) (result : Option Result) : State :=
  { s.respond { status := .ok, result := result } with here := b }

/-- End a command with an error: status, no result, and no state element written (R11 `raise E`, R126, R131). -/
def State.raise (s : State) (e : Status) : State := s.respond { status := e, result := none }

/-- `LIFE` of an instance (R16). -/
def Block.life (b : Block) : Life := b.hasher.life

/-- The state elements of an instance, where its variant is `v`. -/
def Block.hasherAs : (v : Variant) → Block → Option (Hasher v.width)
  | .xxh32, ⟨.xxh32, h⟩ => some h
  | .xxh64, ⟨.xxh64, h⟩ => some h
  | .xxh32, ⟨.xxh64, _⟩ => none
  | .xxh64, ⟨.xxh32, _⟩ => none

/-- Perform a command whose operands fit the port (R57); operands that do not are refused (log 4). -/
def State.performWhen (fits : Bool) (s : State) (k : State → State) :
    Host.Outcome State Fault Refusal :=
  if fits then .next (k s) else .refused .malformedRecord

/-- Perform a command with operands of variant `v`'s width on the addressed instance (R57; log 9). -/
def State.performAs (v : Variant) (fits : Bool) (s : State) (k : Hasher v.width → State) :
    Host.Outcome State Fault Refusal :=
  match s.here.hasherAs v with
  | none => .refused .malformedRecord
  | some h => if fits then .next (k h) else .refused .malformedRecord

/-- The lifecycle check of UPDATE.* and DIGEST: `if LIFE = 0: raise INVALID_STATE` (R129). -/
def State.whenActive (s : State) (k : State) : State :=
  match s.here.life with
  | .active => k
  | .destroyed => s.raise .invalidState

/-- The next transaction of the host, with the instance at its port addressed and the transaction taken from the list;
`none` where no instance has that port (R51, R139). -/
def State.present (s : State) (t : Transaction) (rest : List Transaction) : Option State :=
  match s.select t.port with
  | none => none
  | some s' => some { s' with pending := rest }

/-- The command the addressed instance reads from a transaction (R59). -/
def State.decodeHere (s : State) (t : Transaction) : Except DecodeError Instr :=
  decode s.here.variant t.word t.record

end Sys2Proof.Machine
end

