-- ==== Sys2Proof/Machine/Mixer.lean ====
section
/-! DEFINITION. The BlockMixer and the accumulator initialisation, and the command MIX (spec 40_block_mixer R69 to
R74). -/

namespace Sys2Proof.Machine

open Sys2Proof

/-- `Round_W(acc, x)` (R69). -/
def laneRound (v : Variant) (acc x : v.Word) : v.Word := rotl (acc + x * P2 v) (roundRotation v) * P1 v

/-- `Init(s)` (R70). -/
def initLanes (v : Variant) (s : v.Word) : Lanes v.width where
  v1 := s + P1 v + P2 v
  v2 := s + P2 v
  v3 := s
  v4 := s - P1 v

/-- `word_i` of a block, for `i` from 1 to 4: the little-endian word at byte `WB·(i − 1)` (R32, R71). -/
def laneWord (v : Variant) (blk : List Byte) (i : Nat) : v.Word :=
  BitVec.ofNat v.width (leWord blk (v.wordBytes * (i - 1)) v.wordBytes)

/-- `Mix(V, blk)`: one round per lane, each with its own word of the block (R71). -/
def mix (v : Variant) (a : Lanes v.width) (blk : List Byte) : Lanes v.width where
  v1 := laneRound v a.v1 (laneWord v blk 1)
  v2 := laneRound v a.v2 (laneWord v blk 2)
  v3 := laneRound v a.v3 (laneWord v blk 3)
  v4 := laneRound v a.v4 (laneWord v blk 4)

/-- MIX (R73). -/
def execMix (v : Variant) (a1 a2 a3 a4 : v.Word) (blk : List Byte) (s : State) :
    Host.Outcome State Fault Refusal :=
  s.performAs v (fitsBlock v blk) fun _ =>
    s.complete s.here (some (.lanes v (mix v { v1 := a1, v2 := a2, v3 := a3, v4 := a4 } blk)))

end Sys2Proof.Machine
end

