-- ==== Sys2Proof/Machine/Finalizer.lean ====
section
/-! DEFINITION. The Finalizer and the command FINALIZE (spec 41_finalizer R75 to R93). -/

namespace Sys2Proof.Machine

open Sys2Proof

/-- Lane combination (R78). -/
def combineLanes {W : Nat} (a : Lanes W) : BitVec W :=
  rotl a.v1 1 + rotl a.v2 7 + rotl a.v3 12 + rotl a.v4 18

/-- One merge round of XXH64 (R79). -/
def mergeRound (h a : BitVec 64) : BitVec 64 := (h ^^^ laneRound .xxh64 0 a) * P1 .xxh64 + P4 .xxh64

/-- The merge rounds, lane order V1, V2, V3, V4; XXH32 has none (R79). -/
def mergeLanes : (v : Variant) → Lanes v.width → v.Word → v.Word
  | .xxh32, _, h => h
  | .xxh64, a, h => mergeRound (mergeRound (mergeRound (mergeRound h a.v1) a.v2) a.v3) a.v4

/-- The start value: from the lanes when `T ≥ B`, else from the seed (R77 to R80). -/
def startValue (v : Variant) (a : Lanes v.width) (tot : BitVec 64) (seed : v.Word) : v.Word :=
  if v.blockBytes ≤ tot.toNat then mergeLanes v a (combineLanes a) else seed + P5 v

/-- The length fold: the low `W` bits of the total length are added (R81). -/
def foldLength (v : Variant) (h : v.Word) (tot : BitVec 64) : v.Word := h + tot.setWidth v.width

/-- The tail's 8-byte step of XXH64 on 8 bytes (R83). -/
def tailStep8 (h : BitVec 64) (u : List Byte) : BitVec 64 :=
  rotl (h ^^^ laneRound .xxh64 0 (BitVec.ofNat 64 (leWord u 0 8))) 27 * P1 .xxh64 + P4 .xxh64

/-- The tail's 4-byte step on 4 bytes (R84, R86). -/
def tailStep4 : (v : Variant) → v.Word → List Byte → v.Word
  | .xxh32, h, u =>
    rotl (h + BitVec.ofNat 32 (leWord u 0 4) * P3 .xxh32) (tail4Rotation .xxh32) * P4 .xxh32
  | .xxh64, h, u =>
    rotl (h ^^^ (BitVec.ofNat 64 (leWord u 0 4) * P1 .xxh64)) (tail4Rotation .xxh64) * P2 .xxh64 + P3 .xxh64

/-- The tail's 1-byte step; the byte is taken unsigned (R85, R87). -/
def tailStep1 : (v : Variant) → v.Word → Byte → v.Word
  | .xxh32, h, b => rotl (h + b.setWidth 32 * P5 .xxh32) 11 * P1 .xxh32
  | .xxh64, h, b => rotl (h ^^^ (b.setWidth 64 * P5 .xxh64)) 11 * P1 .xxh64

/-- XXH64: one 4-byte word if at least 4 bytes are left (R84). -/
def tailWord4 (p : BitVec 64 × List Byte) : BitVec 64 × List Byte :=
  if 4 ≤ p.2.length then (tailStep4 .xxh64 p.1 (p.2.take 4), p.2.drop 4) else p

/-- The words of the tail, and the single bytes left: 8-byte words and then at most one 4-byte word for XXH64, 4-byte
words for XXH32 (R82, R90, R91). -/
def tailWords : (v : Variant) → v.Word → List Byte → v.Word × List Byte
  | .xxh32, h, tail => eat 4 (tailStep4 .xxh32) h tail
  | .xxh64, h, tail => tailWord4 (eat 8 tailStep8 h tail)

/-- The tail, front to back in decreasing unit sizes (R82). -/
def foldTail (v : Variant) (h : v.Word) (tail : List Byte) : v.Word :=
  (tailWords v h tail).2.foldl (tailStep1 v) (tailWords v h tail).1

/-- The avalanche (R88, R89). -/
def avalanche (v : Variant) (h : v.Word) : v.Word :=
  xorShift (xorShift (xorShift h (avalancheShifts v).1 * P2 v) (avalancheShifts v).2.1 * P3 v)
    (avalancheShifts v).2.2

/-- `Finalize_W(A, T, tail, seed)`: start value, length fold, tail, avalanche, in this order (R75, R76, R90, R91). -/
def finalizeDigest (v : Variant) (a : Lanes v.width) (tot : BitVec 64) (tail : List Byte) (seed : v.Word) : v.Word :=
  avalanche v (foldTail v (foldLength v (startValue v a tot seed) tot) tail)

/-- FINALIZE (R92). -/
def execFinalize (v : Variant) (a1 a2 a3 a4 : v.Word) (tot : BitVec 64) (tail : List Byte) (seed : v.Word)
    (s : State) : Host.Outcome State Fault Refusal :=
  s.performAs v (fitsTail v tail) fun _ =>
    s.complete s.here
      (some (.digest v (finalizeDigest v { v1 := a1, v2 := a2, v3 := a3, v4 := a4 } tot tail seed)))

end Sys2Proof.Machine
end

