-- ==== Sys2Proof/Machine/OneShot.lean ====
section
/-! DEFINITION. The OneShotHasher and the command ONESHOT (spec 43_oneshot R103, R104). -/

namespace Sys2Proof.Machine

open Sys2Proof

/-- The digest of a complete byte sequence: the block loop from `Init(s)` where there is a whole block, then the
Finalizer on what is left (R103). -/
def oneShotDigest (v : Variant) (seed : v.Word) (data : List Byte) : v.Word :=
  if v.blockBytes ≤ data.length then
    finalizeDigest v (eat v.blockBytes (mix v) (initLanes v seed) data).1 (BitVec.ofNat 64 data.length)
      (eat v.blockBytes (mix v) (initLanes v seed) data).2 seed
  else finalizeDigest v (initLanes v seed) (BitVec.ofNat 64 data.length) data seed

/-- ONESHOT (R103). -/
def execOneshot (v : Variant) (seed : v.Word) (data : List Byte) (s : State) :
    Host.Outcome State Fault Refusal :=
  s.performAs v (fitsLength data) fun _ => s.complete s.here (some (.digest v (oneShotDigest v seed data)))

end Sys2Proof.Machine
end

