-- ==== Sys2Proof/Machine/Streaming.lean ====
section
/-! DEFINITION. The StreamingHasher: absorbing bytes, and CREATE, RESET, DISPOSE, UPDATE.BYTES and DIGEST (spec
42_streaming R94 to R102). -/

namespace Sys2Proof.Machine

open Sys2Proof

/-- The elements CREATE and RESET leave for seed `s` (R26, R95, R96). -/
def startHasher (v : Variant) (s : v.Word) : Hasher v.width where
  life := .active
  seed := s
  lanes := initLanes v s
  res := []
  total := 0

/-- `Absorb(s)` (R94). -/
def Hasher.absorb (v : Variant) (h : Hasher v.width) (data : List Byte) : Hasher v.width :=
  { h with
    total := h.total + BitVec.ofNat 64 data.length
    lanes := (eat v.blockBytes (mix v) h.lanes (h.res ++ data)).1
    res := (eat v.blockBytes (mix v) h.lanes (h.res ++ data)).2 }

/-- `Absorb` on an instance (R94). -/
def Block.absorb (b : Block) (data : List Byte) : Block where
  variant := b.variant
  hasher := Hasher.absorb b.variant b.hasher data

/-- The digest of what an instance has absorbed, computed over its elements, none of them written (R98). -/
def Block.digest (b : Block) : Result :=
  .digest b.variant (finalizeDigest b.variant b.hasher.lanes b.hasher.total b.hasher.res b.hasher.seed)

/-- An instance disposed of: `LIFE` only is written (R27, R99; log 10). -/
def Block.disposed (b : Block) : Block where
  variant := b.variant
  hasher := { b.hasher with life := .destroyed }

/-- The effect of UPDATE.BYTES and of every UPDATE.T: absorb bytes when Active (R97, R114). -/
def State.update (s : State) (data : List Byte) : State :=
  s.whenActive (s.complete (s.here.absorb data) none)

/-- CREATE (R95). -/
def execCreate (v : Variant) (seed : v.Word) (s : State) : Host.Outcome State Fault Refusal :=
  s.performAs v true fun h =>
    match h.life with
    | .active => s.raise .invalidState
    | .destroyed => s.complete { variant := v, hasher := startHasher v seed } none

/-- RESET (R96). -/
def execReset (v : Variant) (seed : v.Word) (s : State) : Host.Outcome State Fault Refusal :=
  s.performAs v true fun _ => s.whenActive (s.complete { variant := v, hasher := startHasher v seed } none)

/-- DISPOSE (R99). -/
def execDispose (s : State) : Host.Outcome State Fault Refusal := .next (s.complete s.here.disposed none)

/-- UPDATE.BYTES (R97). -/
def execUpdateBytes (data : List Byte) (s : State) : Host.Outcome State Fault Refusal :=
  s.performWhen (fitsLength data) fun s => s.update data

/-- DIGEST (R98). -/
def execDigest (s : State) : Host.Outcome State Fault Refusal :=
  .next (s.whenActive (s.complete s.here (some s.here.digest)))

end Sys2Proof.Machine
end

