-- ==== Sys2Proof/Machine/Primitive.lean ====
section
/-! DEFINITION. The PrimitiveEncoder: ENCODE.T and UPDATE.T for the eight primitive types (spec 44_primitive_encoder
R105 to R123). -/

namespace Sys2Proof.Machine

open Sys2Proof

/-- Answer with an encoding; no element is read or written (R105, R25). -/
def State.answerBytes (s : State) (data : List Byte) : State := s.complete s.here (some (.bytes data))

/-- UPDATE.BOOL (R115). -/
def execUpdateBool (val : BitVec 1) (s : State) : Host.Outcome State Fault Refusal := .next (s.update (encBool val))

/-- UPDATE.BYTE (R116). -/
def execUpdateByte (val : BitVec 8) (s : State) : Host.Outcome State Fault Refusal := .next (s.update (encByte val))

/-- UPDATE.CHAR (R117). -/
def execUpdateChar (val : BitVec 16) (s : State) : Host.Outcome State Fault Refusal := .next (s.update (encChar val))

/-- UPDATE.SHORT (R118). -/
def execUpdateShort (val : BitVec 16) (s : State) : Host.Outcome State Fault Refusal := .next (s.update (encShort val))

/-- UPDATE.INT (R119). -/
def execUpdateInt (val : BitVec 32) (s : State) : Host.Outcome State Fault Refusal := .next (s.update (encInt val))

/-- UPDATE.LONG (R120). -/
def execUpdateLong (val : BitVec 64) (s : State) : Host.Outcome State Fault Refusal := .next (s.update (encLong val))

/-- UPDATE.FLOAT (R121). -/
def execUpdateFloat (val : BitVec 32) (s : State) : Host.Outcome State Fault Refusal := .next (s.update (encFloat val))

/-- UPDATE.DOUBLE (R122). -/
def execUpdateDouble (val : BitVec 64) (s : State) : Host.Outcome State Fault Refusal := .next (s.update (encDouble val))

/-- ENCODE.BOOL (R106). -/
def execEncodeBool (val : BitVec 1) (s : State) : Host.Outcome State Fault Refusal := .next (s.answerBytes (encBool val))

/-- ENCODE.BYTE (R107). -/
def execEncodeByte (val : BitVec 8) (s : State) : Host.Outcome State Fault Refusal := .next (s.answerBytes (encByte val))

/-- ENCODE.CHAR (R108). -/
def execEncodeChar (val : BitVec 16) (s : State) : Host.Outcome State Fault Refusal := .next (s.answerBytes (encChar val))

/-- ENCODE.SHORT (R109). -/
def execEncodeShort (val : BitVec 16) (s : State) : Host.Outcome State Fault Refusal := .next (s.answerBytes (encShort val))

/-- ENCODE.INT (R110). -/
def execEncodeInt (val : BitVec 32) (s : State) : Host.Outcome State Fault Refusal := .next (s.answerBytes (encInt val))

/-- ENCODE.LONG (R111). -/
def execEncodeLong (val : BitVec 64) (s : State) : Host.Outcome State Fault Refusal := .next (s.answerBytes (encLong val))

/-- ENCODE.FLOAT (R112). -/
def execEncodeFloat (val : BitVec 32) (s : State) : Host.Outcome State Fault Refusal := .next (s.answerBytes (encFloat val))

/-- ENCODE.DOUBLE (R113). -/
def execEncodeDouble (val : BitVec 64) (s : State) : Host.Outcome State Fault Refusal := .next (s.answerBytes (encDouble val))

end Sys2Proof.Machine
end

