-- ==== Sys2Proof/Machine/Dispatch.lean ====
section
/-! DEFINITION. Each instruction's meaning, one arm per constructor of Instr. -/

namespace Sys2Proof.Machine

open Sys2Proof

def exec (i : Instr) (s : State) : Host.Outcome State Fault Refusal :=
  match i with
  | .create v seed => Sys2Proof.Machine.execCreate v seed s
  | .reset v seed => Sys2Proof.Machine.execReset v seed s
  | .dispose => Sys2Proof.Machine.execDispose s
  | .updateBytes data => Sys2Proof.Machine.execUpdateBytes data s
  | .updateBool val => Sys2Proof.Machine.execUpdateBool val s
  | .updateByte val => Sys2Proof.Machine.execUpdateByte val s
  | .updateChar val => Sys2Proof.Machine.execUpdateChar val s
  | .updateShort val => Sys2Proof.Machine.execUpdateShort val s
  | .updateInt val => Sys2Proof.Machine.execUpdateInt val s
  | .updateLong val => Sys2Proof.Machine.execUpdateLong val s
  | .updateFloat val => Sys2Proof.Machine.execUpdateFloat val s
  | .updateDouble val => Sys2Proof.Machine.execUpdateDouble val s
  | .digest => Sys2Proof.Machine.execDigest s
  | .oneshot v seed data => Sys2Proof.Machine.execOneshot v seed data s
  | .mix v a1 a2 a3 a4 blk => Sys2Proof.Machine.execMix v a1 a2 a3 a4 blk s
  | .finalize v a1 a2 a3 a4 tot tail seed => Sys2Proof.Machine.execFinalize v a1 a2 a3 a4 tot tail seed s
  | .encodeBool val => Sys2Proof.Machine.execEncodeBool val s
  | .encodeByte val => Sys2Proof.Machine.execEncodeByte val s
  | .encodeChar val => Sys2Proof.Machine.execEncodeChar val s
  | .encodeShort val => Sys2Proof.Machine.execEncodeShort val s
  | .encodeInt val => Sys2Proof.Machine.execEncodeInt val s
  | .encodeLong val => Sys2Proof.Machine.execEncodeLong val s
  | .encodeFloat val => Sys2Proof.Machine.execEncodeFloat val s
  | .encodeDouble val => Sys2Proof.Machine.execEncodeDouble val s

end Sys2Proof.Machine
end

