-- ==== Sys2Proof/Machine/Step.lean ====
section
/-! DEFINITION. One step: the instance addressed by the host's next transaction performs it whole (spec 30_encoding R51,
20_memory R42, R44); with no transaction pending the block waits (70_reset_and_hazards R144, 60_exceptions R132). -/

namespace Sys2Proof.Machine

open Sys2Proof

/-- One step. A word that decodes to nothing is answered ILLEGAL_COMMAND, whatever the state and the record (R128, R130). -/
def step (s : State) : Host.Outcome State Fault Refusal :=
  match s.pending with
  | [] => .next s
  | t :: rest =>
    match s.present t rest with
    | none => .fault .noSuchPort
    | some s' =>
      match s'.decodeHere t with
      | .error .illegalCommand => .next (s'.raise .illegalCommand)
      | .error .malformedRecord => .refused .malformedRecord
      | .ok i => exec i s'

/-- The state with a table word presented next, at the port of the addressed instance (log 5, log 11). -/
def State.withFetchWord (s : State) (nbits w : Nat) : State :=
  { s with
    pending :=
      { port := s.port
        word := (tableTransaction s.here.variant nbits w).1
        record := (tableTransaction s.here.variant nbits w).2 } :: s.pending }

end Sys2Proof.Machine
end

