-- ==== Sys2Proof/Machine/Assembler.lean ====
section
/-! DEFINITION. The assembler syntax and programs (spec 30_encoding R62, R63): a line of text as a command, a program as
the commands of its lines in order, and the transactions a host makes of them. No part of the block (log 12). -/

namespace Sys2Proof.Machine

open Sys2Proof

/-- The tokens of a line. -/
inductive Token
  | word (cs : List Char)
  | comma
  | openBrace
  | closeBrace
  | quoted (cs : List Char)
deriving DecidableEq, Repr

/-- Where the scanner stands: outside a string with the word read so far, or inside one with its characters so far. -/
inductive ScanMode
  | plain (acc : List Char)
  | string (acc : List Char)
deriving DecidableEq, Repr

/-- The word read so far as a token, where there is one. -/
def flushWord (acc : List Char) (rest : List Token) : List Token :=
  match acc with
  | [] => rest
  | c :: cs => .word (c :: cs) :: rest

/-- Split a line into tokens; `;` outside a string starts a comment; a string must end and be ASCII (R62). -/
def scan : ScanMode → List Char → Option (List Token)
  | .plain acc, [] => some (flushWord acc [])
  | .string _, [] => none
  | .string acc, c :: cs =>
    if c = '"' then (scan (.plain []) cs).map (.quoted acc :: ·)
    else if c.toNat < 128 then scan (.string (acc ++ [c])) cs
    else none
  | .plain acc, c :: cs =>
    if c = ';' then some (flushWord acc [])
    else if c = ' ' ∨ c = '\t' then (scan (.plain []) cs).map (flushWord acc)
    else if c = ',' then (scan (.plain []) cs).map fun ts => flushWord acc (.comma :: ts)
    else if c = '"' then (scan (.string []) cs).map (flushWord acc)
    else if c.toNat = 123 then (scan (.plain []) cs).map fun ts => flushWord acc (.openBrace :: ts)
    else if c.toNat = 125 then (scan (.plain []) cs).map fun ts => flushWord acc (.closeBrace :: ts)
    else scan (.plain (acc ++ [c])) cs

/-- The value of a digit in base 10 or 16. -/
def digitValue (base : Nat) (c : Char) : Option Nat :=
  let d :=
    if '0' ≤ c ∧ c ≤ '9' then c.toNat - '0'.toNat
    else if 'a' ≤ c ∧ c ≤ 'f' then c.toNat - 'a'.toNat + 10
    else if 'A' ≤ c ∧ c ≤ 'F' then c.toNat - 'A'.toNat + 10
    else base
  if d < base then some d else none

/-- The digits of a numeral, after the value of those before them. -/
def digitsValue (base : Nat) : Nat → List Char → Option Nat
  | acc, [] => some acc
  | acc, c :: cs =>
    match digitValue base c with
    | none => none
    | some d => digitsValue base (acc * base + d) cs

/-- At least one digit. -/
def someDigits (base : Nat) : List Char → Option Nat
  | [] => none
  | c :: cs => digitsValue base 0 (c :: cs)

/-- A hexadecimal numeral after its `0x`. -/
def hexNumeral (cs : List Char) : Option Nat :=
  if cs.take 2 = ['0', 'x'] then someDigits 16 (cs.drop 2) else none

/-- An unsigned numeral, `0x` hexadecimal or decimal (R62). -/
def unsignedNumeral (cs : List Char) : Option Nat :=
  match hexNumeral cs with
  | some n => some n
  | none => someDigits 10 cs

/-- A number that fits a field of `n` bits. -/
def fitField (n : Nat) (x : Nat) : Option (BitVec n) := if x < 2 ^ n then some (BitVec.ofNat n x) else none

/-- A numeral that fits a field of `n` bits (R62). -/
def numeralField (n : Nat) : Token → Option (BitVec n)
  | .word cs =>
    match unsignedNumeral cs with
    | none => none
    | some x => fitField n x
  | _ => none

/-- A numeral of a signed type of `n` bits: a negative decimal numeral stands for its two's-complement pattern (R62). -/
def signedField (n : Nat) : Token → Option (BitVec n)
  | .word (c :: cs) =>
    if c = '-' then
      match someDigits 10 cs with
      | none => none
      | some x => if x ≤ 2 ^ (n - 1) then some (BitVec.ofInt n (-(x : Int))) else none
    else numeralField n (.word (c :: cs))
  | _ => none

/-- `true`, `false`, or a numeral of one bit (R62). -/
def boolField (t : Token) : Option (BitVec 1) :=
  if t = .word "true".toList then some 1
  else if t = .word "false".toList then some 0
  else numeralField 1 t

/-- A hexadecimal bit pattern, the only form for FLOAT and DOUBLE (R62). -/
def patternField (n : Nat) : Token → Option (BitVec n)
  | .word cs =>
    match hexNumeral cs with
    | none => none
    | some x => fitField n x
  | _ => none

/-- Hexadecimal byte pairs up to the closing brace, and the tokens after it (R62). -/
def bracedBytes : List Token → Option (List Byte × List Token)
  | .closeBrace :: ts => some ([], ts)
  | .word [c, d] :: ts =>
    match someDigits 16 [c, d], bracedBytes ts with
    | some b, some (bs, rest) => some (BitVec.ofNat 8 b :: bs, rest)
    | _, _ => none
  | _ => none

/-- A byte sequence: byte pairs in braces, or the bytes of a string's characters (R62). -/
def bytesOperand : List Token → Option (List Byte × List Token)
  | .openBrace :: ts => bracedBytes ts
  | .quoted cs :: ts => some (cs.map fun c => BitVec.ofNat 8 c.toNat, ts)
  | _ => none

/-- A byte sequence that ends the line. -/
def lastBytes (ts : List Token) : Option (List Byte) :=
  match bytesOperand ts with
  | some (data, []) => some data
  | _ => none

/-- The operands of a command with one operand. -/
def oneOperand {α : Type} (read : Token → Option α) (f : α → Instr) : List Token → Option Instr
  | [t] => (read t).map f
  | _ => none

/-- A numeral that fits a field of `n` bits, with the comma after it taken. -/
def fieldThenComma (n : Nat) : List Token → Option (BitVec n × List Token)
  | t :: .comma :: ts => (numeralField n t).map fun x => (x, ts)
  | _ => none

/-- The four lanes at the front of MIX's and FINALIZE's operands, with the tokens after them. -/
def lanesOperands (v : Variant) (ts : List Token) : Option ((v.Word × v.Word × v.Word × v.Word) × List Token) :=
  match fieldThenComma v.width ts with
  | none => none
  | some (a1, r1) =>
    match fieldThenComma v.width r1 with
    | none => none
    | some (a2, r2) =>
      match fieldThenComma v.width r2 with
      | none => none
      | some (a3, r3) =>
        match fieldThenComma v.width r3 with
        | none => none
        | some (a4, r4) => some ((a1, a2, a3, a4), r4)

/-- A seed that ends the line, after the comma before it. -/
def commaSeed (v : Variant) : List Token → Option v.Word
  | [.comma, t] => numeralField v.width t
  | _ => none

/-- FINALIZE's operands after the lanes: the total, the tail's bytes and the seed. -/
def finalizeOperands (v : Variant) (a1 a2 a3 a4 : v.Word) (ts : List Token) : Option Instr :=
  match fieldThenComma 64 ts with
  | none => none
  | some (tot, r1) =>
    match bytesOperand r1 with
    | none => none
    | some (tail, r2) => (commaSeed v r2).map fun seed => .finalize v a1 a2 a3 a4 tot tail seed

/-- The operands of a command on its line (R62). -/
def commandOperands (v : Variant) (c : Command) (ts : List Token) : Option Instr :=
  match c with
  | .create => oneOperand (numeralField v.width) (.create v) ts
  | .reset => oneOperand (numeralField v.width) (.reset v) ts
  | .dispose => if ts = [] then some .dispose else none
  | .updateBytes => (lastBytes ts).map .updateBytes
  | .update .bool => oneOperand boolField .updateBool ts
  | .update .byte => oneOperand (signedField 8) .updateByte ts
  | .update .char => oneOperand (numeralField 16) .updateChar ts
  | .update .short => oneOperand (signedField 16) .updateShort ts
  | .update .int => oneOperand (signedField 32) .updateInt ts
  | .update .long => oneOperand (signedField 64) .updateLong ts
  | .update .float => oneOperand (patternField 32) .updateFloat ts
  | .update .double => oneOperand (patternField 64) .updateDouble ts
  | .digest => if ts = [] then some .digest else none
  | .oneshot =>
    match fieldThenComma v.width ts with
    | none => none
    | some (seed, us) => (lastBytes us).map fun data => .oneshot v seed data
  | .mix =>
    match lanesOperands v ts with
    | none => none
    | some ((a1, a2, a3, a4), us) => (lastBytes us).map fun blk => .mix v a1 a2 a3 a4 blk
  | .finalize =>
    match lanesOperands v ts with
    | none => none
    | some ((a1, a2, a3, a4), us) => finalizeOperands v a1 a2 a3 a4 us
  | .encode .bool => oneOperand boolField .encodeBool ts
  | .encode .byte => oneOperand (signedField 8) .encodeByte ts
  | .encode .char => oneOperand (numeralField 16) .encodeChar ts
  | .encode .short => oneOperand (signedField 16) .encodeShort ts
  | .encode .int => oneOperand (signedField 32) .encodeInt ts
  | .encode .long => oneOperand (signedField 64) .encodeLong ts
  | .encode .float => oneOperand (patternField 32) .encodeFloat ts
  | .encode .double => oneOperand (patternField 64) .encodeDouble ts

/-- The name of a type in a mnemonic (R54). -/
def PrimType.name : PrimType → String
  | .bool => "BOOL"
  | .byte => "BYTE"
  | .char => "CHAR"
  | .short => "SHORT"
  | .int => "INT"
  | .long => "LONG"
  | .float => "FLOAT"
  | .double => "DOUBLE"

/-- The name a command has on a line (R53, R62). -/
def commandName : Command → String
  | .create => "CREATE"
  | .reset => "RESET"
  | .dispose => "DISPOSE"
  | .updateBytes => "UPDATE.BYTES"
  | .update t => "UPDATE." ++ PrimType.name t
  | .digest => "DIGEST"
  | .oneshot => "ONESHOT"
  | .mix => "MIX"
  | .finalize => "FINALIZE"
  | .encode t => "ENCODE." ++ PrimType.name t

/-- The types of R54. -/
def primTypes : List PrimType := [.bool, .byte, .char, .short, .int, .long, .float, .double]

/-- The commands with a primitive type, for both operations that take one (R53). -/
def typedCommands : List Command := primTypes.map Command.update ++ primTypes.map Command.encode

/-- The 24 commands (R59). -/
def allCommands : List Command :=
  .create :: .reset :: .dispose :: .updateBytes :: .digest :: .oneshot :: .mix :: .finalize :: typedCommands

/-- The command a line's first word names. -/
def commandNamed (cs : List Char) : Option Command := allCommands.find? fun c => (commandName c).toList == cs

/-- One line at an instance of variant `v`: a command, or nothing for a line that is blank or only a comment (DESIGN
CHOICE, log 12); `none` where the text is no
line of R62 or its operands do not fit their fields. -/
def assembleLine (v : Variant) (line : List Char) : Option (Option Instr) :=
  match scan (.plain []) line with
  | none => none
  | some [] => some none
  | some (.word cs :: ts) =>
    match commandNamed cs with
    | none => none
    | some c =>
      match commandOperands v c ts with
      | none => none
      | some i => if WellFormed v i then some (some i) else none
  | some (_ :: _) => none

/-- The commands of a program's lines, in order (R62); a command's place in the list is its command index. A line that is
blank or only a comment may stand in a program, makes no command and takes no index (DESIGN CHOICE, log 12). -/
def assemble (v : Variant) : List (List Char) → Option (List Instr)
  | [] => some []
  | line :: lines =>
    match assembleLine v line, assemble v lines with
    | some none, some is => some is
    | some (some i), some is => some (i :: is)
    | _, _ => none

/-- The transaction that presents a command at a port (R51). -/
def transactionOf (port : Nat) (i : Instr) : Transaction where
  port := port
  word := (encode i).1
  record := (encode i).2

/-- The host about to present the commands of a program at a port, in order, before anything else (R62, R152). -/
def State.withProgram (s : State) (port : Nat) (is : List Instr) : State :=
  { s with pending := is.map (transactionOf port) ++ s.pending }

end Sys2Proof.Machine
end

