-- ==== Sys2Proof/Safety.lean ====
section
/-! DEFINITION. The terms claims use: what a command may leave of the state, what a line of text of a command is
(30_encoding R62), runs of commands, the streams an instance has absorbed, and the algorithm written by position in its
input, without the machine's loops (spec 10_state R21, R25; 20_memory R36; 41_finalizer R82, R90, R91; 42_streaming R94;
70_reset_and_hazards R152). A run is safe when every step of it is a next state: a fault or a refusal means that the host
presented what the spec gives no host. -/

namespace Sys2Proof

/-! ## Kinds of commands -/

/-- The commands that neither read nor write an instance's elements (R25). -/
def Command.stateless : Command → Bool
  | .oneshot => true
  | .mix => true
  | .finalize => true
  | .encode _ => true
  | .create => false
  | .reset => false
  | .dispose => false
  | .updateBytes => false
  | .update _ => false
  | .digest => false

/-- UPDATE.BYTES and UPDATE.T (R25). -/
def Command.updates : Command → Bool
  | .updateBytes => true
  | .update _ => true
  | .oneshot => false
  | .mix => false
  | .finalize => false
  | .encode _ => false
  | .create => false
  | .reset => false
  | .dispose => false
  | .digest => false

/-- The bytes of a word, least significant first: byte `k` is bits `8k+7` to `8k`. -/
def bytesOf {W : Nat} (n : Nat) (x : BitVec W) : List Byte := (List.range n).map fun k => x.extractLsb' (8 * k) 8

/-- The bytes an UPDATE passes to the hasher (R97, R115 to R122); no other command passes any. -/
def Instr.absorbs : Instr → List Byte
  | .updateBytes data => data
  | .updateBool val => [if val = 1 then 0x01 else 0x00]
  | .updateByte val => [val]
  | .updateChar val => bytesOf 2 val
  | .updateShort val => bytesOf 2 val
  | .updateInt val => bytesOf 4 val
  | .updateLong val => bytesOf 8 val
  | .updateFloat val => bytesOf 4 val
  | .updateDouble val => bytesOf 8 val
  | .create _ _ => []
  | .reset _ _ => []
  | .dispose => []
  | .digest => []
  | .oneshot _ _ _ => []
  | .mix _ _ _ _ _ _ => []
  | .finalize _ _ _ _ _ _ _ _ => []
  | .encodeBool _ => []
  | .encodeByte _ => []
  | .encodeChar _ => []
  | .encodeShort _ => []
  | .encodeInt _ => []
  | .encodeLong _ => []
  | .encodeFloat _ => []
  | .encodeDouble _ => []

/-! ## Lines of text (30_encoding R62), by what is written, without the assembler -/

/-- `n` spaces. -/
def spaces (n : Nat) : List Char := List.replicate n ' '

/-- The digits of a base up to 16, letters as capitals. -/
def digitCapitals : List Char := ['0', '1', '2', '3', '4', '5', '6', '7', '8', '9', 'A', 'B', 'C', 'D', 'E', 'F']

/-- The digits of a base up to 16, letters as small letters. -/
def digitSmall : List Char := ['0', '1', '2', '3', '4', '5', '6', '7', '8', '9', 'a', 'b', 'c', 'd', 'e', 'f']

/-- The character is the digit `d` of a base up to 16, a letter in either case (log 12). -/
def IsDigit (base : Nat) (c : Char) (d : Nat) : Prop :=
  d < base ∧ (digitCapitals[d]? = some c ∨ digitSmall[d]? = some c)

/-- At least one digit, the most significant first, of the number `x`. -/
def SpellsIn (base : Nat) (cs : List Char) (x : Nat) : Prop :=
  cs ≠ [] ∧ ∃ ds : List Nat, List.Forall₂ (IsDigit base) cs ds ∧ x = Nat.ofDigits base ds.reverse

/-- A hexadecimal numeral of `x`. -/
def SpellsHex (cs : List Char) (x : Nat) : Prop := ∃ ds, cs = '0' :: 'x' :: ds ∧ SpellsIn 16 ds x

/-- An unsigned numeral of `x`, hexadecimal or decimal. -/
def SpellsNumeral (cs : List Char) (x : Nat) : Prop := SpellsHex cs x ∨ SpellsIn 10 cs x

/-- A value of a signed type: an unsigned numeral of its pattern, or a negative decimal numeral of its value. -/
def SpellsSigned {n : Nat} (cs : List Char) (val : BitVec n) : Prop :=
  SpellsNumeral cs val.toNat ∨ ∃ ds x, cs = '-' :: ds ∧ SpellsIn 10 ds x ∧ val.toInt = -(x : Int)

/-- A value of type BOOL. -/
def SpellsBool (cs : List Char) (val : BitVec 1) : Prop :=
  SpellsNumeral cs val.toNat ∨ cs = "true".toList ∧ val = 1 ∨ cs = "false".toList ∧ val = 0

/-- Hexadecimal byte pairs separated by spaces. -/
inductive SpellsPairs : List Char → List Byte → Prop
  | none : SpellsPairs [] []
  | last (c d : Char) (b : Byte) (h : SpellsIn 16 [c, d] b.toNat) : SpellsPairs [c, d] [b]
  | more (c d : Char) (b : Byte) (h : SpellsIn 16 [c, d] b.toNat) (gap : Nat) (cs : List Char) (bs : List Byte)
      (hs : SpellsPairs cs bs) (hb : bs ≠ []) : SpellsPairs (c :: d :: (spaces (gap + 1) ++ cs)) (b :: bs)

/-- A byte sequence: byte pairs in braces (the characters 123 and 125), or a double-quoted ASCII string. -/
def SpellsBytes (cs : List Char) (data : List Byte) : Prop :=
  (∃ ps, cs = Char.ofNat 123 :: (ps ++ [Char.ofNat 125]) ∧ SpellsPairs ps data) ∨
  ∃ s : List Char, cs = '"' :: (s ++ ['"']) ∧ (∀ c ∈ s, c ≠ '"' ∧ c.toNat < 128) ∧
    data = s.map fun c => BitVec.ofNat 8 c.toNat

/-- The name of a command on its line, as R62 writes it. -/
def Instr.lineName : Instr → String
  | .create _ _ => "CREATE"
  | .reset _ _ => "RESET"
  | .dispose => "DISPOSE"
  | .updateBytes _ => "UPDATE.BYTES"
  | .updateBool _ => "UPDATE.BOOL"
  | .updateByte _ => "UPDATE.BYTE"
  | .updateChar _ => "UPDATE.CHAR"
  | .updateShort _ => "UPDATE.SHORT"
  | .updateInt _ => "UPDATE.INT"
  | .updateLong _ => "UPDATE.LONG"
  | .updateFloat _ => "UPDATE.FLOAT"
  | .updateDouble _ => "UPDATE.DOUBLE"
  | .digest => "DIGEST"
  | .oneshot _ _ _ => "ONESHOT"
  | .mix _ _ _ _ _ _ => "MIX"
  | .finalize _ _ _ _ _ _ _ _ => "FINALIZE"
  | .encodeBool _ => "ENCODE.BOOL"
  | .encodeByte _ => "ENCODE.BYTE"
  | .encodeChar _ => "ENCODE.CHAR"
  | .encodeShort _ => "ENCODE.SHORT"
  | .encodeInt _ => "ENCODE.INT"
  | .encodeLong _ => "ENCODE.LONG"
  | .encodeFloat _ => "ENCODE.FLOAT"
  | .encodeDouble _ => "ENCODE.DOUBLE"

/-- What the text of each operand on a command's line must be, in the order of R62. -/
def Instr.lineOperands : Instr → List (List Char → Prop)
  | .create _ seed => [(SpellsNumeral · seed.toNat)]
  | .reset _ seed => [(SpellsNumeral · seed.toNat)]
  | .dispose => []
  | .updateBytes data => [(SpellsBytes · data)]
  | .updateBool val => [(SpellsBool · val)]
  | .updateByte val => [(SpellsSigned · val)]
  | .updateChar val => [(SpellsNumeral · val.toNat)]
  | .updateShort val => [(SpellsSigned · val)]
  | .updateInt val => [(SpellsSigned · val)]
  | .updateLong val => [(SpellsSigned · val)]
  | .updateFloat val => [(SpellsHex · val.toNat)]
  | .updateDouble val => [(SpellsHex · val.toNat)]
  | .digest => []
  | .oneshot _ seed data => [(SpellsNumeral · seed.toNat), (SpellsBytes · data)]
  | .mix _ a1 a2 a3 a4 blk =>
    [(SpellsNumeral · a1.toNat), (SpellsNumeral · a2.toNat), (SpellsNumeral · a3.toNat), (SpellsNumeral · a4.toNat),
      (SpellsBytes · blk)]
  | .finalize _ a1 a2 a3 a4 tot tail seed =>
    [(SpellsNumeral · a1.toNat), (SpellsNumeral · a2.toNat), (SpellsNumeral · a3.toNat), (SpellsNumeral · a4.toNat),
      (SpellsNumeral · tot.toNat), (SpellsBytes · tail), (SpellsNumeral · seed.toNat)]
  | .encodeBool val => [(SpellsBool · val)]
  | .encodeByte val => [(SpellsSigned · val)]
  | .encodeChar val => [(SpellsNumeral · val.toNat)]
  | .encodeShort val => [(SpellsSigned · val)]
  | .encodeInt val => [(SpellsSigned · val)]
  | .encodeLong val => [(SpellsSigned · val)]
  | .encodeFloat val => [(SpellsHex · val.toNat)]
  | .encodeDouble val => [(SpellsHex · val.toNat)]

/-- Operand texts with a comma after each but the last, and any spaces after a comma. -/
inductive CommaSeparated : List (List Char) → List Char → Prop
  | none : CommaSeparated [] []
  | last (t : List Char) : CommaSeparated [t] t
  | more (t : List Char) (gap : Nat) (ts : List (List Char)) (cs : List Char) (h : CommaSeparated ts cs)
      (ht : ts ≠ []) : CommaSeparated (t :: ts) (t ++ ',' :: (spaces gap ++ cs))

/-- Nothing, or a comment. -/
def IsComment (cs : List Char) : Prop := cs = [] ∨ ∃ text, cs = ';' :: text

/-- The line is a text of the command: its name, its operands after at least one space, any spaces, and a comment or
nothing. -/
def Instr.IsLine (i : Instr) (line : List Char) : Prop :=
  ∃ (texts : List (List Char)) (operands comment : List Char) (before after : Nat),
    List.Forall₂ (fun p t => p t) i.lineOperands texts ∧ CommaSeparated texts operands ∧ IsComment comment ∧
    (texts ≠ [] → 0 < before) ∧
    line = i.lineName.toList ++ (spaces before ++ (operands ++ (spaces after ++ comment)))

/-- The lines are a program of the commands: each line a command's text, or no more than spaces and a comment,
which makes no command and takes no command index (DESIGN CHOICE, log 12). -/
inductive IsProgram : List Instr → List (List Char) → Prop
  | done : IsProgram [] []
  | command (i : Instr) (line : List Char) (is : List Instr) (lines : List (List Char)) (h : i.IsLine line)
      (hs : IsProgram is lines) : IsProgram (i :: is) (line :: lines)
  | blank (gap : Nat) (comment : List Char) (is : List Instr) (lines : List (List Char)) (h : IsComment comment)
      (hs : IsProgram is lines) : IsProgram is ((spaces gap ++ comment) :: lines)

end Sys2Proof

namespace Sys2Proof.Machine

open Sys2Proof

/-! ## Commands and runs -/

/-- `s` after the addressed instance has become `b` and has given one response; everything else as it was. -/
def State.answered (s : State) (b : Block) (r : Response) : State where
  before := s.before
  here := b
  after := s.after
  pending := s.pending
  responses := s.responses ++ [{ port := s.before.length, response := r }]

/-- The response of a command that completed without a result (R58). -/
def Response.done : Response where
  status := .ok
  result := none

/-- The response of a command that completed with a result (R58). -/
def Response.doneWith (r : Result) : Response where
  status := .ok
  result := some r

/-- The response of a command that failed (R131). -/
def Response.failed (e : Status) : Response where
  status := e
  result := none

/-- Commands performed one after another at one instance (R42, R152). -/
def execAll : List Instr → State → Host.Outcome State Fault Refusal
  | [], s => .next s
  | i :: is, s =>
    match exec i s with
    | .next s' => execAll is s'
    | .fault f => .fault f
    | .refused r => .refused r

/-! ## Streams -/

/-- The whole blocks of a byte sequence: block `k` is its bytes `B·k` to `B·k + B − 1` (R36). -/
def fullBlocks (v : Variant) (s : List Byte) : List (List Byte) :=
  (List.range (s.length / v.blockBytes)).map fun k => (s.drop (v.blockBytes * k)).take v.blockBytes

/-- What is left of a byte sequence after its whole blocks: from byte `B·⌊len/B⌋` on (R36). -/
def afterBlocks (v : Variant) (s : List Byte) : List Byte := s.drop (v.blockBytes * (s.length / v.blockBytes))

/-- The elements after absorbing `data`, by position in `RES ++ data` (R94). -/
def Hasher.fed (v : Variant) (h : Hasher v.width) (data : List Byte) : Hasher v.width where
  life := h.life
  seed := h.seed
  lanes := (fullBlocks v (h.res ++ data)).foldl (mix v) h.lanes
  res := afterBlocks v (h.res ++ data)
  total := BitVec.ofNat 64 (h.total.toNat + data.length)

/-- The elements of a hasher that was created with `seed` and has absorbed `bytes` since (R20, R21, R36, R70). -/
def Hasher.ofStream (v : Variant) (seed : v.Word) (bytes : List Byte) : Hasher v.width where
  life := .active
  seed := seed
  lanes := (fullBlocks v bytes).foldl (mix v) (initLanes v seed)
  res := afterBlocks v bytes
  total := BitVec.ofNat 64 bytes.length

/-- An Active instance's elements are those of some stream of bytes (R21). -/
def Block.FollowsStream (b : Block) : Prop :=
  b.hasher.life = .active → ∃ seed bytes, b.hasher = Hasher.ofStream b.variant seed bytes

/-- Every instance follows some stream. -/
def State.FollowStreams (s : State) : Prop := ∀ b ∈ s.before ++ s.here :: s.after, b.FollowsStream

/-- An Active instance's residual buffer has `TOTAL mod B` bytes (R21). -/
def Block.ResidualFits (b : Block) : Prop :=
  b.hasher.life = .active → b.hasher.res.length = b.hasher.total.toNat % b.variant.blockBytes

/-- Every instance's residual buffer fits its total. -/
def State.ResidualsFit (s : State) : Prop := ∀ b ∈ s.before ++ s.here :: s.after, b.ResidualFits

/-! ## The algorithm by position -/

/-- Byte `p` of a sequence as a number. -/
def byteAt (s : List Byte) (p : Nat) : Nat := (s.getD p 0).toNat

/-- The little-endian word of `n` bytes at byte `p`: the sum of `s[p+k]·2^(8k)` (R10). -/
def wordAt (s : List Byte) (p n : Nat) : Nat := ((List.range n).map fun k => byteAt s (p + k) * 2 ^ (8 * k)).sum

/-- `Round_64`, with its constants (R67 to R69). -/
def refRound64 (acc x : BitVec 64) : BitVec 64 :=
  (acc + x * 0xC2B2AE3D27D4EB4F).rotateLeft 31 * 0x9E3779B185EBCA87

/-- `Round_32`, with its constants (R67 to R69). -/
def refRound32 (acc x : BitVec 32) : BitVec 32 := (acc + x * 0x85EBCA77).rotateLeft 13 * 0x9E3779B1

/-- The start value of `Finalize64` (R77 to R80, R90). -/
def refStart64 (a : Lanes 64) (tot seed : BitVec 64) : BitVec 64 :=
  if 32 ≤ tot.toNat then
    [a.v1, a.v2, a.v3, a.v4].foldl (fun h x => (h ^^^ refRound64 0 x) * 0x9E3779B185EBCA87 + 0x85EBCA77C2B2AE63)
      (a.v1.rotateLeft 1 + a.v2.rotateLeft 7 + a.v3.rotateLeft 12 + a.v4.rotateLeft 18)
  else seed + 0x27D4EB2F165667C5

/-- The tail of `Finalize64` with `n` bytes: `⌊n/8⌋` 8-byte words, a 4-byte word if `n mod 8 ≥ 4`, and the last
`n mod 4` bytes singly (R82 to R85). -/
def refTail64 (h : BitVec 64) (t : List Byte) : BitVec 64 :=
  let h8 := (List.range (t.length / 8)).foldl
    (fun h k => (h ^^^ refRound64 0 (BitVec.ofNat 64 (wordAt t (8 * k) 8))).rotateLeft 27 * 0x9E3779B185EBCA87
      + 0x85EBCA77C2B2AE63) h
  let h4 :=
    if 4 ≤ t.length % 8 then
      (h8 ^^^ (BitVec.ofNat 64 (wordAt t (8 * (t.length / 8)) 4) * 0x9E3779B185EBCA87)).rotateLeft 23
        * 0xC2B2AE3D27D4EB4F + 0x165667B19E3779F9
    else h8
  (List.range (t.length % 4)).foldl
    (fun h k => (h ^^^ (BitVec.ofNat 64 (byteAt t (4 * (t.length / 4) + k)) * 0x27D4EB2F165667C5)).rotateLeft 11
      * 0x9E3779B185EBCA87) h4

/-- The avalanche of `Finalize64` (R88). -/
def refAvalanche64 (h : BitVec 64) : BitVec 64 :=
  let h1 := (h ^^^ (h >>> 33)) * 0xC2B2AE3D27D4EB4F
  let h2 := (h1 ^^^ (h1 >>> 29)) * 0x165667B19E3779F9
  h2 ^^^ (h2 >>> 32)

/-- `Finalize64` (R90). -/
def refFinalize64 (a : Lanes 64) (tot : BitVec 64) (t : List Byte) (seed : BitVec 64) : BitVec 64 :=
  refAvalanche64 (refTail64 (refStart64 a tot seed + tot) t)

/-- The start value of `Finalize32`: no merge rounds (R77 to R80, R91). -/
def refStart32 (a : Lanes 32) (tot : BitVec 64) (seed : BitVec 32) : BitVec 32 :=
  if 16 ≤ tot.toNat then a.v1.rotateLeft 1 + a.v2.rotateLeft 7 + a.v3.rotateLeft 12 + a.v4.rotateLeft 18
  else seed + 0x165667B1

/-- The tail of `Finalize32` with `n` bytes: `⌊n/4⌋` 4-byte words and the last `n mod 4` bytes singly (R82, R86,
R87). -/
def refTail32 (h : BitVec 32) (t : List Byte) : BitVec 32 :=
  let h4 := (List.range (t.length / 4)).foldl
    (fun h k => (h + BitVec.ofNat 32 (wordAt t (4 * k) 4) * 0xC2B2AE3D).rotateLeft 17 * 0x27D4EB2F) h
  (List.range (t.length % 4)).foldl
    (fun h k => (h + BitVec.ofNat 32 (byteAt t (4 * (t.length / 4) + k)) * 0x165667B1).rotateLeft 11 * 0x9E3779B1) h4

/-- The avalanche of `Finalize32` (R89). -/
def refAvalanche32 (h : BitVec 32) : BitVec 32 :=
  let h1 := (h ^^^ (h >>> 15)) * 0x85EBCA77
  let h2 := (h1 ^^^ (h1 >>> 13)) * 0xC2B2AE3D
  h2 ^^^ (h2 >>> 16)

/-- `Finalize32` (R91). -/
def refFinalize32 (a : Lanes 32) (tot : BitVec 64) (t : List Byte) (seed : BitVec 32) : BitVec 32 :=
  refAvalanche32 (refTail32 (refStart32 a tot seed + tot.extractLsb' 0 32) t)

end Sys2Proof.Machine
end

