-- ==== Sys2Proof/Certificates/Slice0/Obligations.lean ====
section
/-! DEFINITION. The statements for the provers. A statement about a command holds for both variants, for every state and
every operand the port can carry. `State.answered` says the whole frame: the addressed instance, the one response at its
port, and nothing else. -/

open Sys2Proof Sys2Proof.Machine

/-! ## Encoding -/

/-- The example words of R65 (the spec marks R65 as derived from R52 to R54 and R59). -/
def Obligations.ExampleWordsDecode : Prop :=
  decodeWord 0x00000001 = some .create ∧ decodeWord 0x00000020 = some .digest ∧
  decodeWord 0x00000411 = some (.update .int) ∧ decodeWord 0x00000732 = some (.encode .double) ∧
  decodeWord 0x00000111 = some (.update .byte) ∧
  decodeWord 0x00000811 = none ∧ decodeWord 0x00000120 = none ∧ decodeWord 0x00001020 = none

/-- R59, R66: a word decodes to a command exactly where it is that command's row of the opcode table. -/
def Obligations.ExactlyTheTableWordsDecode : Prop :=
  ∀ (w : CmdWord) (c : Command), decodeWord w = some c ↔
    (w, c) ∈ ([(0x00000001, .create), (0x00000002, .reset), (0x00000003, .dispose), (0x00000010, .updateBytes),
      (0x00000011, .update .bool), (0x00000111, .update .byte), (0x00000211, .update .char),
      (0x00000311, .update .short), (0x00000411, .update .int), (0x00000511, .update .long),
      (0x00000611, .update .float), (0x00000711, .update .double),
      (0x00000020, .digest), (0x00000021, .oneshot), (0x00000030, .mix), (0x00000031, .finalize),
      (0x00000032, .encode .bool), (0x00000132, .encode .byte), (0x00000232, .encode .char),
      (0x00000332, .encode .short), (0x00000432, .encode .int), (0x00000532, .encode .long),
      (0x00000632, .encode .float), (0x00000732, .encode .double)] : List (CmdWord × Command))

/-- Decoding the word and record of a command that fits the instance's format gives the command back. -/
def Obligations.DecodeOfEncodeIsTheCommand : Prop :=
  ∀ (v : Variant) (i : Instr), WellFormed v i = true → decode v (encode i).1 (encode i).2 = .ok i

/-- A decoded transaction fits the instance's format and is the only one that decodes to its command. -/
def Obligations.EncodeOfDecodeIsTheTransaction : Prop :=
  ∀ (v : Variant) (w : CmdWord) (record : List Bool) (i : Instr), decode v w record = .ok i →
    encode i = (w, record) ∧ WellFormed v i = true

/-- R57, R61: the length of the operand record follows from the command and, for its byte sequence, from the length
before it; the record's layout as bits is the model's choice (log 3). -/
def Obligations.OperandRecordLengthFollowsTheCommand : Prop :=
  ∀ (v : Variant) (w : CmdWord) (record : List Bool) (i : Instr), decode v w record = .ok i →
    record.length =
      match i with
      | .create _ _ => v.width
      | .reset _ _ => v.width
      | .dispose => 0
      | .updateBytes data => 64 + 8 * data.length
      | .updateBool _ => 1
      | .updateByte _ => 8
      | .updateChar _ => 16
      | .updateShort _ => 16
      | .updateInt _ => 32
      | .updateLong _ => 64
      | .updateFloat _ => 32
      | .updateDouble _ => 64
      | .digest => 0
      | .oneshot _ _ data => v.width + 64 + 8 * data.length
      | .mix _ _ _ _ _ _ => 4 * v.width + 8 * v.blockBytes
      | .finalize _ _ _ _ _ _ tail _ => 4 * v.width + 64 + v.tlBits + 8 * tail.length + v.width
      | .encodeBool _ => 1
      | .encodeByte _ => 8
      | .encodeChar _ => 16
      | .encodeShort _ => 16
      | .encodeInt _ => 32
      | .encodeLong _ => 64
      | .encodeFloat _ => 32
      | .encodeDouble _ => 64

/-- R62: every command has a line, and every line of a command that fits, in any form R62 gives its operands, assembles
to that command; so a program's lines assemble to its commands, in order. A line that assembles to a command gives a
transaction that decodes to it. What R62 leaves open of the text (spaces, the case of a digit, that a blank or comment
line may stand in a program and makes no command) is the model's choice (log 12). -/
def Obligations.LinesAssembleToTheirCommands : Prop :=
  (∀ i : Instr, ∃ line, i.IsLine line) ∧
  (∀ (v : Variant) (i : Instr) (line : List Char), WellFormed v i = true → i.IsLine line →
    assembleLine v line = some (some i)) ∧
  (∀ (v : Variant) (is : List Instr) (lines : List (List Char)), (∀ i ∈ is, WellFormed v i = true) →
    IsProgram is lines → assemble v lines = some is) ∧
  (∀ (v : Variant) (line : List Char) (i : Instr) (port : Nat), assembleLine v line = some (some i) →
    WellFormed v i = true ∧ decode v (transactionOf port i).word (transactionOf port i).record = .ok i)

/-! ## Steps, errors and the port -/

/-- The next transaction's command, decoded by the instance at its port, is performed there. -/
def Obligations.StepPerformsTheDecodedCommand : Prop :=
  ∀ (s : State) (t : Transaction) (rest : List Transaction) (b : Block) (i : Instr),
    s.pending = t :: rest → (s.before ++ s.here :: s.after)[t.port]? = some b →
    decode b.variant t.word t.record = .ok i →
    step s = exec i
      { before := (s.before ++ s.here :: s.after).take t.port
        here := b
        after := (s.before ++ s.here :: s.after).drop (t.port + 1)
        pending := rest
        responses := s.responses }

/-- R132, R144: with no command presented, nothing happens. -/
def Obligations.StepWaitsForACommand : Prop := ∀ s : State, s.pending = [] → step s = .next s

/-- R60, R128, R130: a word with a reserved `RSV`, `PT` or `OP` is answered ILLEGAL_COMMAND at its port, in either
lifecycle state and whatever its record; every instance stays as it was. -/
def Obligations.IllegalWordIsAnsweredAndChangesNothing : Prop :=
  ∀ (s : State) (t : Transaction) (rest : List Transaction),
    s.pending = t :: rest → t.port < (s.before ++ s.here :: s.after).length →
    (t.word.toNat / 4096 ≠ 0 ∨
      (t.word.toNat % 256 = 0x11 ∨ t.word.toNat % 256 = 0x32) ∧ 8 ≤ t.word.toNat / 256 % 16 ∨
      ¬ (t.word.toNat % 256 = 0x11 ∨ t.word.toNat % 256 = 0x32) ∧ t.word.toNat / 256 % 16 ≠ 0 ∨
      t.word.toNat % 256 ∉ [0x01, 0x02, 0x03, 0x10, 0x11, 0x20, 0x21, 0x30, 0x31, 0x32]) →
    ∃ s', step s = .next s' ∧ s'.before ++ s'.here :: s'.after = s.before ++ s.here :: s.after ∧ s'.pending = rest ∧
      s'.responses = s.responses ++ [{ port := t.port, response := .failed .illegalCommand }] ∧
      Status.illegalCommand.code = 2

/-- The model's own choice (log 4): a step faults exactly on a transaction for a port no instance has, and refuses
exactly a record that is not of the form R57 gives its word. -/
def Obligations.StepStopsOnlyOnWhatNoHostPresents : Prop :=
  ∀ s : State,
    ((∃ f, step s = .fault f) ↔
      ∃ t rest, s.pending = t :: rest ∧ (s.before ++ s.here :: s.after).length ≤ t.port) ∧
    ((∃ r, step s = .refused r) ↔
      ∃ t rest b, s.pending = t :: rest ∧ (s.before ++ s.here :: s.after)[t.port]? = some b ∧
        decode b.variant t.word t.record = .error .malformedRecord)

/-- The model's own choice (log 4): a command ends in a stop exactly where its operands do not fit the addressed
instance's format, and then in the refusal `malformedRecord`. -/
def Obligations.CommandStopsOnlyOnOperandsThatDoNotFit : Prop :=
  ∀ (i : Instr) (s : State),
    (WellFormed s.here.variant i = true → ∃ s', exec i s = .next s') ∧
    (WellFormed s.here.variant i = false → exec i s = .refused .malformedRecord)

/-- R51, R58, R127: a step that takes a command answers it with one response at its port, of status OK, INVALID_STATE
or ILLEGAL_COMMAND, with a result only where it is OK. -/
def Obligations.EveryCommandIsAnsweredOnce : Prop :=
  ∀ (s s' : State) (t : Transaction) (rest : List Transaction), s.pending = t :: rest → step s = .next s' →
    s'.pending = rest ∧
    ∃ r : Response, s'.responses = s.responses ++ [{ port := t.port, response := r }] ∧
      (r.status.code = 0 ∨ r.status.code = 1 ∨ r.status.code = 2) ∧ (r.status.code ≠ 0 → r.result = none)

/-- R131: a command that fails, for its word or for the lifecycle, writes no element of any instance and returns no
result. -/
def Obligations.FailedCommandsWriteNothing : Prop :=
  ∀ (s s' : State) (t : Transaction) (rest : List Transaction), s.pending = t :: rest → step s = .next s' →
    ∃ r : Response, s'.responses = s.responses ++ [{ port := t.port, response := r }] ∧
      (r.status ≠ .ok → s'.before ++ s'.here :: s'.after = s.before ++ s.here :: s.after ∧ r.result = none)

/-- R129: which decoded commands the lifecycle lets through, and what it becomes. A command that is not let through
gets INVALID_STATE and changes nothing; one that is let through completes. -/
def Obligations.LifecycleDecidesWhatIsPerformed : Prop :=
  ∀ (s : State) (i : Instr), WellFormed s.here.variant i = true →
    ∃ (b : Block) (r : Response), exec i s = .next (s.answered b r) ∧
      (i.command = .create ∧ s.here.hasher.life = .active ∨
        (i.command = .reset ∨ i.command = .digest ∨ i.command.updates = true) ∧ s.here.hasher.life = .destroyed →
        b = s.here ∧ r = .failed .invalidState ∧ r.status.code = 1) ∧
      (i.command = .create ∧ s.here.hasher.life = .destroyed → r.status = .ok ∧ b.hasher.life = .active) ∧
      ((i.command = .reset ∨ i.command = .digest ∨ i.command.updates = true) ∧ s.here.hasher.life = .active →
        r.status = .ok ∧ b.hasher.life = .active) ∧
      (i.command = .dispose → r.status = .ok ∧ b.hasher.life = .destroyed ∧
        (s.here.hasher.life = .destroyed → b = s.here)) ∧
      (i.command.stateless = true → r.status = .ok ∧ b = s.here)

/-- R42: commands presented to one instance take effect in the order the host issues them, each on the state the one
before it left: the machine's steps on a program's transactions are its commands one after another. -/
def Obligations.CommandsRunInTheOrderPresented : Prop :=
  ∀ (s t : State) (is : List Instr), execAll is s = .next t →
    Sys2Proof.core.run is.length (s.withProgram s.before.length is) = .next t

/-! ## The BlockMixer -/

/-- R67 to R69: the lane round of both variants, with the constants. -/
def Obligations.RoundIsTheSpecsRound : Prop :=
  (∀ acc x : BitVec 32, laneRound .xxh32 acc x = refRound32 acc x) ∧
  (∀ acc x : BitVec 64, laneRound .xxh64 acc x = refRound64 acc x)

/-- R67, R70: the accumulator set a seed gives, with the constants. -/
def Obligations.InitUsesThePrimes : Prop :=
  (∀ s : BitVec 32, initLanes .xxh32 s =
    { v1 := s + 0x9E3779B1 + 0x85EBCA77, v2 := s + 0x85EBCA77, v3 := s, v4 := s - 0x9E3779B1 }) ∧
  (∀ s : BitVec 64, initLanes .xxh64 s =
    { v1 := s + 0x9E3779B185EBCA87 + 0xC2B2AE3D27D4EB4F, v2 := s + 0xC2B2AE3D27D4EB4F, v3 := s,
      v4 := s - 0x9E3779B185EBCA87 })

/-- R71, R73: MIX, command word 0x00000030, answers with one round per lane on the block's four little-endian words,
in either lifecycle state. -/
def Obligations.MixRoundsEachLaneWithItsWord : Prop :=
  ∀ (v : Variant) (h : Hasher v.width) (s : State) (a1 a2 a3 a4 : v.Word) (blk : List Byte),
    s.here = { variant := v, hasher := h } → blk.length = v.blockBytes →
    (encode (.mix v a1 a2 a3 a4 blk)).1 = 0x00000030 ∧
    exec (.mix v a1 a2 a3 a4 blk) s = .next (s.answered s.here (.doneWith (.lanes v
      { v1 := laneRound v a1 (BitVec.ofNat v.width (wordAt blk 0 v.wordBytes))
        v2 := laneRound v a2 (BitVec.ofNat v.width (wordAt blk v.wordBytes v.wordBytes))
        v3 := laneRound v a3 (BitVec.ofNat v.width (wordAt blk (v.wordBytes * 2) v.wordBytes))
        v4 := laneRound v a4 (BitVec.ofNat v.width (wordAt blk (v.wordBytes * 3) v.wordBytes)) })))

/-- R72 (the spec marks it as derived from R71): a mixed lane depends on that lane and its word of the block only. -/
def Obligations.LanesAreMixedIndependently : Prop :=
  ∀ (v : Variant) (a b : Lanes v.width) (x y : List Byte),
    (a.v1 = b.v1 → x.take v.wordBytes = y.take v.wordBytes → (mix v a x).v1 = (mix v b y).v1) ∧
    (a.v2 = b.v2 → (x.drop v.wordBytes).take v.wordBytes = (y.drop v.wordBytes).take v.wordBytes →
      (mix v a x).v2 = (mix v b y).v2) ∧
    (a.v3 = b.v3 → (x.drop (v.wordBytes * 2)).take v.wordBytes = (y.drop (v.wordBytes * 2)).take v.wordBytes →
      (mix v a x).v3 = (mix v b y).v3) ∧
    (a.v4 = b.v4 → (x.drop (v.wordBytes * 3)).take v.wordBytes = (y.drop (v.wordBytes * 3)).take v.wordBytes →
      (mix v a x).v4 = (mix v b y).v4)

/-! ## The Finalizer -/

/-- R92: FINALIZE, command word 0x00000031, answers with the Finalizer's digest of its operands, in either lifecycle
state, for any total with any tail. -/
def Obligations.FinalizeAnswersItsDigest : Prop :=
  ∀ (v : Variant) (h : Hasher v.width) (s : State) (a1 a2 a3 a4 : v.Word) (tot : BitVec 64) (tail : List Byte)
    (seed : v.Word),
    s.here = { variant := v, hasher := h } → tail.length ≤ v.blockBytes - 1 →
    (encode (.finalize v a1 a2 a3 a4 tot tail seed)).1 = 0x00000031 ∧
    exec (.finalize v a1 a2 a3 a4 tot tail seed) s = .next (s.answered s.here (.doneWith (.digest v
      (finalizeDigest v { v1 := a1, v2 := a2, v3 := a3, v4 := a4 } tot tail seed))))

/-- R90: the XXH64 finalizer is the algorithm by position. -/
def Obligations.Finalize64IsTheAlgorithm : Prop :=
  ∀ (a : Lanes 64) (tot : BitVec 64) (tail : List Byte) (seed : BitVec 64),
    finalizeDigest .xxh64 a tot tail seed = refFinalize64 a tot tail seed

/-- R91: the XXH32 finalizer is the algorithm by position. -/
def Obligations.Finalize32IsTheAlgorithm : Prop :=
  ∀ (a : Lanes 32) (tot : BitVec 64) (tail : List Byte) (seed : BitVec 32),
    finalizeDigest .xxh32 a tot tail seed = refFinalize32 a tot tail seed

/-- R77, R93: for a total below one block, FINALIZE does not depend on the lanes. -/
def Obligations.FinalizeIgnoresLanesBelowOneBlock : Prop :=
  ∀ (v : Variant) (s : State) (a1 a2 a3 a4 b1 b2 b3 b4 : v.Word) (tot : BitVec 64) (tail : List Byte) (seed : v.Word),
    tot.toNat < v.blockBytes →
    exec (.finalize v a1 a2 a3 a4 tot tail seed) s = exec (.finalize v b1 b2 b3 b4 tot tail seed) s

/-- R81, R92: XXH32 folds the low 32 bits of the total only, so two totals of at least one block that agree there give
the same response. -/
def Obligations.Xxh32FoldsTheLowTotalOnly : Prop :=
  ∀ (s : State) (a1 a2 a3 a4 : BitVec 32) (tot tot' : BitVec 64) (tail : List Byte) (seed : BitVec 32),
    16 ≤ tot.toNat → 16 ≤ tot'.toNat → tot.toNat % 2 ^ 32 = tot'.toNat % 2 ^ 32 →
    exec (.finalize .xxh32 a1 a2 a3 a4 tot tail seed) s = exec (.finalize .xxh32 a1 a2 a3 a4 tot' tail seed) s

/-! ## The StreamingHasher -/

/-- R95: CREATE, command word 0x00000001. -/
def Obligations.CreateStartsAHasher : Prop :=
  ∀ (v : Variant) (h : Hasher v.width) (s : State) (seed : v.Word), s.here = { variant := v, hasher := h } →
    (encode (.create v seed)).1 = 0x00000001 ∧
    (h.life = .destroyed → exec (.create v seed) s = .next (s.answered
      { variant := v
        hasher := { life := .active, seed := seed, lanes := initLanes v seed, res := [], total := 0 } } .done)) ∧
    (h.life = .active → exec (.create v seed) s = .next (s.answered s.here (.failed .invalidState)))

/-- R96: RESET, command word 0x00000002. -/
def Obligations.ResetRestartsTheHasher : Prop :=
  ∀ (v : Variant) (h : Hasher v.width) (s : State) (seed : v.Word), s.here = { variant := v, hasher := h } →
    (encode (.reset v seed)).1 = 0x00000002 ∧
    (h.life = .active → exec (.reset v seed) s = .next (s.answered
      { variant := v
        hasher := { life := .active, seed := seed, lanes := initLanes v seed, res := [], total := 0 } } .done)) ∧
    (h.life = .destroyed → exec (.reset v seed) s = .next (s.answered s.here (.failed .invalidState)))

/-- R27, R99: DISPOSE, command word 0x00000003, performed in either lifecycle state, writes `LIFE` only; on a
Destroyed instance it is a no-op. -/
def Obligations.DisposeWritesLifeOnly : Prop :=
  ∀ (v : Variant) (h : Hasher v.width) (s : State), s.here = { variant := v, hasher := h } →
    (encode .dispose).1 = 0x00000003 ∧
    exec .dispose s = .next (s.answered
      { variant := v
        hasher := { life := .destroyed, seed := h.seed, lanes := h.lanes, res := h.res, total := h.total } } .done) ∧
    (h.life = .destroyed → exec .dispose s = .next (s.answered s.here .done))

/-- R36, R142 (which the spec marks as derived): a byte sequence is its whole blocks, `⌊len/B⌋` of `B` bytes each, and
fewer than `B` bytes after them; these are the blocks UPDATE and ONESHOT mix. -/
def Obligations.BlocksPartitionTheStream : Prop :=
  ∀ (v : Variant) (s : List Byte),
    (fullBlocks v s).length = s.length / v.blockBytes ∧ (∀ b ∈ fullBlocks v s, b.length = v.blockBytes) ∧
    (afterBlocks v s).length < v.blockBytes ∧ (fullBlocks v s).flatten ++ afterBlocks v s = s

/-- R94, R97: UPDATE.BYTES, command word 0x00000010, on an Active instance mixes the whole blocks of `RES ++ DATA` in
stream order, keeps what is left and adds the operand's length to `TOTAL` modulo 2^64; on a Destroyed one it fails. -/
def Obligations.UpdateBytesAbsorbsTheStream : Prop :=
  ∀ (v : Variant) (h : Hasher v.width) (s : State) (data : List Byte),
    s.here = { variant := v, hasher := h } → data.length < 2 ^ 64 →
    (encode (.updateBytes data)).1 = 0x00000010 ∧
    (h.life = .active → exec (.updateBytes data) s = .next (s.answered
      { variant := v
        hasher :=
          { life := .active
            seed := h.seed
            lanes := (fullBlocks v (h.res ++ data)).foldl (mix v) h.lanes
            res := afterBlocks v (h.res ++ data)
            total := BitVec.ofNat 64 (h.total.toNat + data.length) } } .done)) ∧
    (h.life = .destroyed → exec (.updateBytes data) s = .next (s.answered s.here (.failed .invalidState)))

/-- R114 to R122: each UPDATE.T, with its command word, absorbs the little-endian bytes of its value on an Active
instance, and fails on a Destroyed one. -/
def Obligations.UpdateOfAPrimitiveAbsorbsItsBytes : Prop :=
  ∀ (v : Variant) (h : Hasher v.width) (s : State), s.here = { variant := v, hasher := h } →
    (∀ val : BitVec 1, (encode (.updateBool val)).1 = 0x00000011 ∧
      (h.life = .active → exec (.updateBool val) s = .next (s.answered
        { variant := v, hasher := h.fed v [if val = 1 then 0x01 else 0x00] } .done)) ∧
      (h.life = .destroyed → exec (.updateBool val) s = .next (s.answered s.here (.failed .invalidState)))) ∧
    (∀ val : BitVec 8, (encode (.updateByte val)).1 = 0x00000111 ∧
      (h.life = .active → exec (.updateByte val) s = .next (s.answered
        { variant := v, hasher := h.fed v [val] } .done)) ∧
      (h.life = .destroyed → exec (.updateByte val) s = .next (s.answered s.here (.failed .invalidState)))) ∧
    (∀ val : BitVec 16, (encode (.updateChar val)).1 = 0x00000211 ∧
      (h.life = .active → exec (.updateChar val) s = .next (s.answered
        { variant := v, hasher := h.fed v (bytesOf 2 val) } .done)) ∧
      (h.life = .destroyed → exec (.updateChar val) s = .next (s.answered s.here (.failed .invalidState)))) ∧
    (∀ val : BitVec 16, (encode (.updateShort val)).1 = 0x00000311 ∧
      (h.life = .active → exec (.updateShort val) s = .next (s.answered
        { variant := v, hasher := h.fed v (bytesOf 2 val) } .done)) ∧
      (h.life = .destroyed → exec (.updateShort val) s = .next (s.answered s.here (.failed .invalidState)))) ∧
    (∀ val : BitVec 32, (encode (.updateInt val)).1 = 0x00000411 ∧
      (h.life = .active → exec (.updateInt val) s = .next (s.answered
        { variant := v, hasher := h.fed v (bytesOf 4 val) } .done)) ∧
      (h.life = .destroyed → exec (.updateInt val) s = .next (s.answered s.here (.failed .invalidState)))) ∧
    (∀ val : BitVec 64, (encode (.updateLong val)).1 = 0x00000511 ∧
      (h.life = .active → exec (.updateLong val) s = .next (s.answered
        { variant := v, hasher := h.fed v (bytesOf 8 val) } .done)) ∧
      (h.life = .destroyed → exec (.updateLong val) s = .next (s.answered s.here (.failed .invalidState)))) ∧
    (∀ val : BitVec 32, (encode (.updateFloat val)).1 = 0x00000611 ∧
      (h.life = .active → exec (.updateFloat val) s = .next (s.answered
        { variant := v, hasher := h.fed v (bytesOf 4 val) } .done)) ∧
      (h.life = .destroyed → exec (.updateFloat val) s = .next (s.answered s.here (.failed .invalidState)))) ∧
    (∀ val : BitVec 64, (encode (.updateDouble val)).1 = 0x00000711 ∧
      (h.life = .active → exec (.updateDouble val) s = .next (s.answered
        { variant := v, hasher := h.fed v (bytesOf 8 val) } .done)) ∧
      (h.life = .destroyed → exec (.updateDouble val) s = .next (s.answered s.here (.failed .invalidState))))

/-- R123 (the spec marks it as derived from R97 and R114): an UPDATE.T leaves the state and gives the response that
UPDATE.BYTES of its bytes does, in either lifecycle state. -/
def Obligations.UpdateOfAPrimitiveIsUpdateOfItsBytes : Prop :=
  ∀ (s : State) (i : Instr), i.command.updates = true → WellFormed s.here.variant i = true →
    exec i s = exec (.updateBytes i.absorbs) s

/-- R94, conflict C7: an input that does not complete the residual to a block is kept there and mixes nothing; one
that does is mixed by the block it completes. -/
def Obligations.ShortInputStaysInTheResidual : Prop :=
  ∀ (v : Variant) (h : Hasher v.width) (s : State) (data : List Byte),
    s.here = { variant := v, hasher := h } → h.life = .active → data.length < 2 ^ 64 → h.res.length < v.blockBytes →
    (h.res.length + data.length < v.blockBytes → ∃ g : Hasher v.width,
      exec (.updateBytes data) s = .next (s.answered { variant := v, hasher := g } .done) ∧
      g.lanes = h.lanes ∧ g.res = h.res ++ data) ∧
    (v.blockBytes ≤ h.res.length + data.length → h.res.length + data.length < 2 * v.blockBytes → ∃ g : Hasher v.width,
      exec (.updateBytes data) s = .next (s.answered { variant := v, hasher := g } .done) ∧
      g.lanes = mix v h.lanes (h.res ++ data.take (v.blockBytes - h.res.length)) ∧
      g.res = data.drop (v.blockBytes - h.res.length))

/-- R98: DIGEST, command word 0x00000020. -/
def Obligations.DigestReadsWithoutWriting : Prop :=
  ∀ (v : Variant) (h : Hasher v.width) (s : State), s.here = { variant := v, hasher := h } →
    (encode .digest).1 = 0x00000020 ∧
    (h.life = .active → exec .digest s = .next (s.answered s.here (.doneWith (.digest v
      (finalizeDigest v h.lanes h.total h.res h.seed))))) ∧
    (h.life = .destroyed → exec .digest s = .next (s.answered s.here (.failed .invalidState)))

/-- R102 (the spec marks it as derived from R95 and R98): DIGEST twice gives the same response twice and leaves the
instance as it was; right after CREATE it is the digest of the empty input. -/
def Obligations.DigestIsIdempotent : Prop :=
  ∀ (v : Variant) (h : Hasher v.width) (s : State) (seed : v.Word), s.here = { variant := v, hasher := h } →
    (∃ r, execAll [.digest, .digest] s = .next ((s.answered s.here r).answered s.here r)) ∧
    (h.life = .destroyed → ∃ s1, exec (.create v seed) s = .next s1 ∧
      exec .digest s1 = .next (s1.answered s1.here (.doneWith (.digest v
        (finalizeDigest v (initLanes v seed) 0 [] seed)))))

/-- R29 (the spec marks it as derived from R25 and R77): two Active instances that differ in the lanes only, with less
than one block absorbed, answer DIGEST alike. -/
def Obligations.DigestHidesLanesBelowOneBlock : Prop :=
  ∀ (v : Variant) (h : Hasher v.width) (a : Lanes v.width) (s : State),
    s.here = { variant := v, hasher := h } → h.life = .active → h.total.toNat < v.blockBytes →
    ∃ r, exec .digest s = .next (s.answered s.here r) ∧
      exec .digest { s with here := { variant := v, hasher := { h with lanes := a } } } =
        .next (s.answered { variant := v, hasher := { h with lanes := a } } r)

/-- R20, R94, R114, and R21 (which the spec marks as derived): after CREATE and any UPDATE commands the elements are
those of the stream of all their bytes, however it was split over them. -/
def Obligations.StreamedStateIsThatOfItsBytes : Prop :=
  ∀ (v : Variant) (h : Hasher v.width) (s : State) (seed : v.Word) (is : List Instr),
    s.here = { variant := v, hasher := h } → h.life = .destroyed →
    (∀ i ∈ is, i.command.updates = true ∧ WellFormed v i = true) →
    ∃ t, execAll (.create v seed :: is) s = .next t ∧
      t.here = { variant := v, hasher := Hasher.ofStream v seed (is.flatMap Instr.absorbs) } ∧
      t.before = s.before ∧ t.after = s.after ∧ t.pending = s.pending

/-- R100 (the spec marks it as derived from R94): split invariance, and the digest after it. -/
def Obligations.SplitInvariance : Prop :=
  ∀ (v : Variant) (h : Hasher v.width) (s : State) (seed : v.Word) (chunks : List (List Byte)),
    s.here = { variant := v, hasher := h } → h.life = .destroyed → chunks.flatten.length < 2 ^ 64 →
    ∃ t u t' u', execAll (.create v seed :: chunks.map .updateBytes) s = .next t ∧
      execAll [.create v seed, .updateBytes chunks.flatten] s = .next u ∧ t.here = u.here ∧
      exec .digest t = .next t' ∧ exec .digest u = .next u' ∧ t'.responses.getLast? = u'.responses.getLast?

/-- R101 (the spec marks it as derived from R95 and R96): after RESET of an Active instance every sequence of commands
gives the responses and leaves the elements it does after CREATE from Destroyed. -/
def Obligations.ResetLeavesNoResidue : Prop :=
  ∀ (v : Variant) (g h : Hasher v.width) (s t : State) (seed : v.Word) (is : List Instr) (s' : State),
    s.here = { variant := v, hasher := g } → g.life = .active →
    t.here = { variant := v, hasher := h } → h.life = .destroyed →
    execAll (.reset v seed :: is) s = .next s' →
    ∃ (t' : State) (rs : List Response), execAll (.create v seed :: is) t = .next t' ∧ t'.here = s'.here ∧
      s'.responses = s.responses ++ rs.map (fun r => { port := s.before.length, response := r }) ∧
      t'.responses = t.responses ++ rs.map (fun r => { port := t.before.length, response := r })

/-- R148, R149: a DIGEST anywhere in a sequence of commands changes neither the instance they leave nor any other
response. -/
def Obligations.DigestMayStandAnywhere : Prop :=
  ∀ (s t : State) (is js : List Instr), execAll (is ++ js) s = .next t →
    ∃ (t' : State) (pre post : List Reply) (r : Reply), execAll (is ++ .digest :: js) s = .next t' ∧
      t'.here = t.here ∧ t'.before = t.before ∧ t'.after = t.after ∧ t'.pending = t.pending ∧
      pre.length = s.responses.length + is.length ∧ t.responses = pre ++ post ∧ t'.responses = pre ++ r :: post

/-! ## The OneShotHasher -/

/-- R103: ONESHOT, command word 0x00000021, mixes the operand's whole blocks from `Init` and finalizes with what is
left, in either lifecycle state, touching no element. -/
def Obligations.OneShotDigestsTheWholeOperand : Prop :=
  ∀ (v : Variant) (h : Hasher v.width) (s : State) (seed : v.Word) (data : List Byte),
    s.here = { variant := v, hasher := h } → data.length < 2 ^ 64 →
    (encode (.oneshot v seed data)).1 = 0x00000021 ∧
    exec (.oneshot v seed data) s = .next (s.answered s.here (.doneWith (.digest v
      (finalizeDigest v ((fullBlocks v data).foldl (mix v) (initLanes v seed)) (BitVec.ofNat 64 data.length)
        (afterBlocks v data) seed))))

/-- R104 (the spec marks it as derived from R94): ONESHOT gives the digest of the streaming path, from Destroyed by
CREATE and from Active by RESET. -/
def Obligations.OneShotEqualsStreaming : Prop :=
  ∀ (v : Variant) (h : Hasher v.width) (s : State) (seed : v.Word) (data : List Byte),
    s.here = { variant := v, hasher := h } → data.length < 2 ^ 64 →
    ∃ d : v.Word, exec (.oneshot v seed data) s = .next (s.answered s.here (.doneWith (.digest v d))) ∧
      (h.life = .destroyed → ∃ u, execAll [.create v seed, .updateBytes data] s = .next u ∧
        exec .digest u = .next (u.answered u.here (.doneWith (.digest v d)))) ∧
      (h.life = .active → ∃ u, execAll [.reset v seed, .updateBytes data] s = .next u ∧
        exec .digest u = .next (u.answered u.here (.doneWith (.digest v d))))

/-! ## The PrimitiveEncoder -/

/-- R105 to R113: each ENCODE.T, with its command word, answers with its value's bytes, least significant first, in
either lifecycle state. -/
def Obligations.EncodersEmitLittleEndianBytes : Prop :=
  ∀ s : State,
    (∀ val : BitVec 1, (encode (.encodeBool val)).1 = 0x00000032 ∧
      exec (.encodeBool val) s = .next (s.answered s.here (.doneWith (.bytes
        [if val = 1 then 0x01 else 0x00])))) ∧
    (∀ val : BitVec 8, (encode (.encodeByte val)).1 = 0x00000132 ∧
      exec (.encodeByte val) s = .next (s.answered s.here (.doneWith (.bytes
        [val])))) ∧
    (∀ val : BitVec 16, (encode (.encodeChar val)).1 = 0x00000232 ∧
      exec (.encodeChar val) s = .next (s.answered s.here (.doneWith (.bytes
        [val.extractLsb' 0 8, val.extractLsb' 8 8])))) ∧
    (∀ val : BitVec 16, (encode (.encodeShort val)).1 = 0x00000332 ∧
      exec (.encodeShort val) s = .next (s.answered s.here (.doneWith (.bytes
        [val.extractLsb' 0 8, val.extractLsb' 8 8])))) ∧
    (∀ val : BitVec 32, (encode (.encodeInt val)).1 = 0x00000432 ∧
      exec (.encodeInt val) s = .next (s.answered s.here (.doneWith (.bytes
        [val.extractLsb' 0 8, val.extractLsb' 8 8, val.extractLsb' 16 8, val.extractLsb' 24 8])))) ∧
    (∀ val : BitVec 64, (encode (.encodeLong val)).1 = 0x00000532 ∧
      exec (.encodeLong val) s = .next (s.answered s.here (.doneWith (.bytes
        [val.extractLsb' 0 8, val.extractLsb' 8 8, val.extractLsb' 16 8, val.extractLsb' 24 8,
        val.extractLsb' 32 8, val.extractLsb' 40 8, val.extractLsb' 48 8, val.extractLsb' 56 8])))) ∧
    (∀ val : BitVec 32, (encode (.encodeFloat val)).1 = 0x00000632 ∧
      exec (.encodeFloat val) s = .next (s.answered s.here (.doneWith (.bytes
        [val.extractLsb' 0 8, val.extractLsb' 8 8, val.extractLsb' 16 8, val.extractLsb' 24 8])))) ∧
    (∀ val : BitVec 64, (encode (.encodeDouble val)).1 = 0x00000732 ∧
      exec (.encodeDouble val) s = .next (s.answered s.here (.doneWith (.bytes
        [val.extractLsb' 0 8, val.extractLsb' 8 8, val.extractLsb' 16 8, val.extractLsb' 24 8,
        val.extractLsb' 32 8, val.extractLsb' 40 8, val.extractLsb' 48 8, val.extractLsb' 56 8]))))

/-- R10: `LE` is the sum of the bytes by their places, of `8n` bits; `LEbytes` lists the bytes by their places; and
`LE` of `LEbytes` gives the value back. -/
def Obligations.LittleEndianWordsAndBytes : Prop :=
  (∀ (s : List Byte) (i n : Nat), i + n ≤ s.length → leWord s i n = wordAt s i n ∧ leWord s i n < 2 ^ (8 * n)) ∧
  (∀ (n : Nat) (x : BitVec (8 * n)), leBytes n x.toNat = bytesOf n x) ∧
  (∀ (n : Nat) (x : BitVec (8 * n)), leWord (leBytes n x.toNat) 0 n = x.toNat)

/-! ## Frames, invariants and instances -/

/-- R16 to R20, R25: a command writes, at the addressed instance, only the elements its row of R25 lets it. -/
def Obligations.CommandsWriteOnlyTheirElements : Prop :=
  ∀ (i : Instr) (s s' : State) (v : Variant) (h : Hasher v.width), s.here = { variant := v, hasher := h } →
    exec i s = .next s' →
    ∃ g : Hasher v.width, s'.here = { variant := v, hasher := g } ∧
      (i.command ≠ .create → i.command ≠ .dispose → g.life = h.life) ∧
      (i.command ≠ .create → i.command ≠ .reset → g.seed = h.seed) ∧
      (i.command ≠ .create → i.command ≠ .reset → i.command.updates = false →
        g.lanes = h.lanes ∧ g.res = h.res ∧ g.total = h.total) ∧
      (i.command.stateless = true → g = h)

/-- R39, D8: a stateless command succeeds, with a response that depends on its operands only, not on the state or the
lifecycle of the instance. -/
def Obligations.StatelessCommandsIgnoreTheState : Prop :=
  ∀ (i : Instr) (s t : State), i.command.stateless = true → s.here.variant = t.here.variant →
    WellFormed s.here.variant i = true →
    ∃ r : Result, exec i s = .next (s.answered s.here (.doneWith r)) ∧
      exec i t = .next (t.answered t.here (.doneWith r))

/-- R21 (the spec marks it as derived from R94 and R20): every step keeps every Active instance's elements those of a
stream of bytes since its CREATE or RESET. -/
def Obligations.StepKeepsStreams : Prop :=
  ∀ s s' : State, s.FollowStreams → step s = .next s' → s'.FollowStreams

/-- R21 at power-on. -/
def Obligations.PowerOnFollowsStreams : Prop := State.reset.FollowStreams

/-- R21 (the spec marks it as derived from R94 and R20): every step keeps `len(RES) = TOTAL mod B` in every Active
instance, through the wrap of `TOTAL`. -/
def Obligations.StepKeepsResidualLength : Prop :=
  ∀ s s' : State, s.ResidualsFit → step s = .next s' → s'.ResidualsFit

/-- R26, R144: at power-on every instance is Destroyed, no command is presented and none has been answered, and the
block waits (that every element but `LIFE` is 0 or empty is the model's choice, log 2, and is not stated here). -/
def Obligations.PowerOnIsDestroyedAndWaiting : Prop :=
  (∀ b ∈ State.reset.before ++ State.reset.here :: State.reset.after,
    b.hasher.life = .destroyed ∧ b.hasher.life.bit = 0) ∧
  State.reset.pending = [] ∧ State.reset.responses = [] ∧ step State.reset = .next State.reset

/-- `len(RES) = TOTAL mod B` in every Active instance, at power-on, where none is Active. -/
def Obligations.PowerOnResidualsFit : Prop := State.reset.ResidualsFit

/-- R2, R22: no step changes the number of instances or the variant of any. -/
def Obligations.StepKeepsVariants : Prop :=
  ∀ s s' : State, step s = .next s' →
    (s'.before ++ s'.here :: s'.after).map Block.variant = (s.before ++ s.here :: s.after).map Block.variant

/-- R46: a command to one instance changes no other instance and answers at no other port. -/
def Obligations.CommandTouchesOnlyItsInstance : Prop :=
  ∀ (s s' : State) (t : Transaction) (rest : List Transaction), s.pending = t :: rest → step s = .next s' →
    ∀ q, q ≠ t.port →
      (s'.before ++ s'.here :: s'.after)[q]? = (s.before ++ s.here :: s.after)[q]? ∧
      s'.responses.filter (fun r => r.port == q) = s.responses.filter (fun r => r.port == q)

/-- R46: commands to different instances commute, in the instances they leave and the responses each port gives. -/
def Obligations.CommandsToDifferentInstancesCommute : Prop :=
  ∀ (s s1 s2 : State) (t u : Transaction) (rest : List Transaction), s.pending = t :: u :: rest → t.port ≠ u.port →
    step s = .next s1 → step s1 = .next s2 →
    ∃ s1' s2', step { s with pending := u :: t :: rest } = .next s1' ∧ step s1' = .next s2' ∧
      s2'.before ++ s2'.here :: s2'.after = s2.before ++ s2.here :: s2.after ∧ s2'.pending = s2.pending ∧
      ∀ p, s2'.responses.filter (fun r => r.port == p) = s2.responses.filter (fun r => r.port == p)

/-! ## Text that is no line -/

/-- R62: a numeral that does not fit its field, and a decimal numeral for FLOAT or DOUBLE, make no command. -/
def Obligations.NumeralsThatDoNotFitMakeNoCommand : Prop :=
  ∀ (v : Variant) (t : List Char) (x : Nat),
    (SpellsNumeral t x →
      (2 ^ v.width ≤ x → assembleLine v ("CREATE ".toList ++ t) = none ∧ assembleLine v ("RESET ".toList ++ t) = none) ∧
      (2 ≤ x →
        assembleLine v ("UPDATE.BOOL ".toList ++ t) = none ∧ assembleLine v ("ENCODE.BOOL ".toList ++ t) = none) ∧
      (2 ^ 8 ≤ x →
        assembleLine v ("UPDATE.BYTE ".toList ++ t) = none ∧ assembleLine v ("ENCODE.BYTE ".toList ++ t) = none) ∧
      (2 ^ 16 ≤ x →
        assembleLine v ("UPDATE.CHAR ".toList ++ t) = none ∧ assembleLine v ("ENCODE.CHAR ".toList ++ t) = none ∧
        assembleLine v ("UPDATE.SHORT ".toList ++ t) = none ∧ assembleLine v ("ENCODE.SHORT ".toList ++ t) = none) ∧
      (2 ^ 32 ≤ x →
        assembleLine v ("UPDATE.INT ".toList ++ t) = none ∧ assembleLine v ("ENCODE.INT ".toList ++ t) = none ∧
        assembleLine v ("UPDATE.FLOAT ".toList ++ t) = none ∧ assembleLine v ("ENCODE.FLOAT ".toList ++ t) = none) ∧
      (2 ^ 64 ≤ x →
        assembleLine v ("UPDATE.LONG ".toList ++ t) = none ∧ assembleLine v ("ENCODE.LONG ".toList ++ t) = none ∧
        assembleLine v ("UPDATE.DOUBLE ".toList ++ t) = none ∧ assembleLine v ("ENCODE.DOUBLE ".toList ++ t) = none)) ∧
    (SpellsIn 10 t x →
      assembleLine v ("UPDATE.FLOAT ".toList ++ t) = none ∧ assembleLine v ("ENCODE.FLOAT ".toList ++ t) = none ∧
      assembleLine v ("UPDATE.DOUBLE ".toList ++ t) = none ∧ assembleLine v ("ENCODE.DOUBLE ".toList ++ t) = none)
end

