-- ==== Sys2Proof/Laws/Assembler.lean ====
section
/-! SUPPORT. What the scanner makes of a word, of spaces and of an operand's text, and what numerals and byte sequences
read as. -/

namespace Sys2Proof.Machine

open Sys2Proof

/-! ## The scanner -/

/-- A character that only adds to the word it stands in. -/
def IsPlain (c : Char) : Prop :=
  c ≠ ';' ∧ c ≠ ' ' ∧ c ≠ '\t' ∧ c ≠ ',' ∧ c ≠ '"' ∧ c.toNat ≠ 123 ∧ c.toNat ≠ 125

/-- Text at which a word ends: none, or one whose first character is not plain. -/
def EndsWord (rest : List Char) : Prop := ∀ c ∈ rest.head?, ¬IsPlain c

/-- The scanner makes these tokens of the text, whatever stands after it that ends a word. -/
def Scans (text : List Char) (tokens : List Token) : Prop :=
  ∀ rest, EndsWord rest → scan (.plain []) (text ++ rest) = (scan (.plain []) rest).map (tokens ++ ·)

theorem scan_plain {c : Char} (h : IsPlain c) (acc cs : List Char) :
    scan (.plain acc) (c :: cs) = scan (.plain (acc ++ [c])) cs := by
  obtain ⟨h1, h2, h3, h4, h5, h6, h7⟩ := h
  simp [scan, h1, h2, h3, h4, h5, h6, h7]

theorem scan_word {w : List Char} (h : ∀ c ∈ w, IsPlain c) (acc rest : List Char) :
    scan (.plain acc) (w ++ rest) = scan (.plain (acc ++ w)) rest := by
  induction w generalizing acc with
  | nil => simp
  | cons c w ih =>
    rw [List.cons_append, scan_plain (h c (by simp)), ih fun d hd => h d (by simp [hd])]
    simp

/-- A word ends where it must. -/
theorem scan_flush {rest : List Char} (h : EndsWord rest) (acc : List Char) :
    scan (.plain acc) rest = (scan (.plain []) rest).map (flushWord acc) := by
  cases rest with
  | nil => simp [scan, flushWord]
  | cons c cs =>
    have hc : ¬IsPlain c := h c (by simp)
    have hid : flushWord [] = id := rfl
    simp only [scan]
    split
    · simp [flushWord]
    · split
      · simp [hid]
      · split
        · simp [Function.comp_def, flushWord]
        · split
          · simp [hid]
          · split
            · simp [Function.comp_def, flushWord]
            · split
              · simp [Function.comp_def, flushWord]
              · rename_i h1 h2 h3 h4 h5 h6
                simp only [not_or] at h2
                exact absurd ⟨h1, h2.1, h2.2, h3, h4, h5, h6⟩ hc

theorem scans_word {w : List Char} (hw : w ≠ []) (h : ∀ c ∈ w, IsPlain c) : Scans w [.word w] := by
  intro rest hr
  rw [scan_word h, List.nil_append, scan_flush hr]
  cases w with
  | nil => exact absurd rfl hw
  | cons c cs => rfl

theorem scan_spaces (n : Nat) (rest : List Char) :
    scan (.plain []) (spaces n ++ rest) = scan (.plain []) rest := by
  induction n with
  | zero => rfl
  | succ n ih =>
    rw [spaces, List.replicate_succ, List.cons_append, scan]
    simp only [Char.reduceEq, reduceIte, true_or]
    rw [show flushWord [] = id from rfl, Option.map_id_fun, id]
    exact ih

theorem scan_comment {cs : List Char} (h : IsComment cs) : scan (.plain []) cs = some [] := by
  rcases h with rfl | ⟨text, rfl⟩ <;> simp [scan, flushWord]

theorem endsWord_cons {c : Char} (h : ¬IsPlain c) (cs : List Char) : EndsWord (c :: cs) := by
  intro d hd
  cases hd
  exact h

theorem endsWord_spaces_comment {cs : List Char} (h : IsComment cs) (n : Nat) : EndsWord (spaces n ++ cs) := by
  cases n with
  | succ n => exact endsWord_cons (by simp [IsPlain]) _
  | zero =>
    rcases h with rfl | ⟨text, rfl⟩
    · intro c hc
      cases hc
    · exact endsWord_cons (by simp [IsPlain]) _

/-! ## Numerals -/

theorem digitValue_of_isDigit {base d : Nat} {c : Char} (hb : base ≤ 16) (h : IsDigit base c d) :
    digitValue base c = some d := by
  obtain ⟨hd, h⟩ := h
  have key : ∀ d < 16, ∀ c, (digitCapitals[d]? = some c ∨ digitSmall[d]? = some c) →
      (if '0' ≤ c ∧ c ≤ '9' then c.toNat - '0'.toNat
        else if 'a' ≤ c ∧ c ≤ 'f' then c.toNat - 'a'.toNat + 10
        else if 'A' ≤ c ∧ c ≤ 'F' then c.toNat - 'A'.toNat + 10 else base) = d := by
    intro d hd c hc
    interval_cases d <;> rcases hc with hc | hc <;> cases hc <;> rfl
  have hk := key d (by omega) c h
  simp only [digitValue, hk, hd, if_true]

theorem isPlain_of_isDigit {base d : Nat} {c : Char} (hb : base ≤ 16) (h : IsDigit base c d) : IsPlain c := by
  obtain ⟨hd, h⟩ := h
  have key : ∀ d < 16, ∀ c, (digitCapitals[d]? = some c ∨ digitSmall[d]? = some c) →
      IsPlain c := by
    intro d hd c hc
    interval_cases d <;> rcases hc with hc | hc <;> cases hc <;> simp [IsPlain]
  exact key d (by omega) c h

theorem digitsValue_of_digits {base : Nat} (hb : base ≤ 16) {cs : List Char} {ds : List Nat}
    (h : List.Forall₂ (IsDigit base) cs ds) (acc : Nat) :
    digitsValue base acc cs = some (ds.foldl (fun a d => a * base + d) acc) := by
  induction h generalizing acc with
  | nil => rfl
  | cons hc _ ih => simp only [digitsValue, digitValue_of_isDigit hb hc, List.foldl_cons, ih]

theorem ofDigits_reverse (base : Nat) (ds : List Nat) :
    Nat.ofDigits base ds.reverse = ds.foldl (fun a d => a * base + d) 0 := by
  rw [Nat.ofDigits_eq_foldr, List.foldr_reverse]
  congr 1
  funext a d
  simp only [Nat.cast_id]
  rw [Nat.mul_comm, Nat.add_comm]

theorem someDigits_of_spells {base x : Nat} (hb : base ≤ 16) {cs : List Char} (h : SpellsIn base cs x) :
    someDigits base cs = some x := by
  obtain ⟨hne, ds, hd, rfl⟩ := h
  cases cs with
  | nil => exact absurd rfl hne
  | cons c cs => rw [someDigits, digitsValue_of_digits hb hd, ofDigits_reverse]

theorem plain_of_spells {base x : Nat} (hb : base ≤ 16) {cs : List Char} (h : SpellsIn base cs x) :
    ∀ c ∈ cs, IsPlain c := by
  obtain ⟨-, ds, hd, -⟩ := h
  induction hd with
  | nil => simp
  | cons hc _ ih =>
    intro e he
    rcases List.mem_cons.mp he with rfl | he
    · exact isPlain_of_isDigit hb hc
    · exact ih e he

/-- A decimal numeral does not begin as a hexadecimal one does, or as a negative one. -/
theorem head_of_spells_ten {x : Nat} {cs : List Char} (h : SpellsIn 10 cs x) :
    hexNumeral cs = none ∧ ∃ c ds, cs = c :: ds ∧ c ≠ '-' ∧ c ≠ 't' ∧ c ≠ 'f' := by
  have key : ∀ {c d}, IsDigit 10 c d → c ≠ '-' ∧ c ≠ 't' ∧ c ≠ 'f' ∧ c ≠ 'x' := by
    rintro c d ⟨hd, hc⟩
    interval_cases d <;> rcases hc with hc | hc <;> cases hc <;> simp
  obtain ⟨hne, ds, hd, -⟩ := h
  cases hd with
  | nil => exact absurd rfl hne
  | cons hc hs =>
    rename_i c d cs ds
    refine ⟨?_, c, cs, rfl, (key hc).1, (key hc).2.1, (key hc).2.2.1⟩
    cases hs with
    | nil => simp [hexNumeral]
    | cons hc' _ => simp [hexNumeral, (key hc').2.2.2]

theorem hexNumeral_of_spells {x : Nat} {cs : List Char} (h : SpellsHex cs x) : hexNumeral cs = some x := by
  obtain ⟨ds, rfl, h⟩ := h
  simp [hexNumeral, someDigits_of_spells (by decide) h]

theorem unsignedNumeral_of_spells {x : Nat} {cs : List Char} (h : SpellsNumeral cs x) :
    unsignedNumeral cs = some x := by
  rcases h with h | h
  · rw [unsignedNumeral, hexNumeral_of_spells h]
  · rw [unsignedNumeral, (head_of_spells_ten h).1]
    exact someDigits_of_spells (by decide) h

theorem head_of_spells {x : Nat} {cs : List Char} (h : SpellsNumeral cs x) :
    ∃ c ds, cs = c :: ds ∧ c ≠ '-' ∧ c ≠ 't' ∧ c ≠ 'f' := by
  rcases h with ⟨ds, rfl, -⟩ | h
  · exact ⟨'0', 'x' :: ds, rfl, by simp⟩
  · exact (head_of_spells_ten h).2

theorem scans_hex {x : Nat} {cs : List Char} (h : SpellsHex cs x) : Scans cs [.word cs] := by
  obtain ⟨ds, rfl, h⟩ := h
  refine scans_word (by simp) fun c hc => ?_
  rcases List.mem_cons.mp hc with rfl | hc
  · simp [IsPlain]
  · rcases List.mem_cons.mp hc with rfl | hc
    · simp [IsPlain]
    · exact plain_of_spells (by decide) h c hc

theorem scans_numeral {x : Nat} {cs : List Char} (h : SpellsNumeral cs x) : Scans cs [.word cs] := by
  rcases h with h | h
  · exact scans_hex h
  · exact scans_word h.1 (plain_of_spells (by decide) h)

theorem numeralField_of_spells {n x : Nat} {cs : List Char} (h : SpellsNumeral cs x) :
    numeralField n (.word cs) = fitField n x := by
  simp only [numeralField, unsignedNumeral_of_spells h]

theorem patternField_of_spells {n x : Nat} {cs : List Char} (h : SpellsHex cs x) :
    patternField n (.word cs) = fitField n x := by
  simp only [patternField, hexNumeral_of_spells h]

theorem fitField_toNat {n : Nat} (x : BitVec n) : fitField n x.toNat = some x := by
  rw [fitField, if_pos x.isLt, BitVec.ofNat_toNat, BitVec.setWidth_eq]

theorem signedField_of_numeral {n x : Nat} {cs : List Char} (h : SpellsNumeral cs x) :
    signedField n (.word cs) = fitField n x := by
  obtain ⟨c, ds, rfl, hc, -⟩ := head_of_spells h
  rw [signedField, if_neg hc, numeralField_of_spells h]

theorem boolField_of_numeral {x : Nat} {cs : List Char} (h : SpellsNumeral cs x) :
    boolField (.word cs) = fitField 1 x := by
  rw [← numeralField_of_spells h]
  obtain ⟨c, ds, rfl, -, ht, hf⟩ := head_of_spells h
  simp [boolField, ht, hf]

/-! ## Values, byte sequences and lines -/

theorem scans_signed {n : Nat} {val : BitVec n} {cs : List Char} (h : SpellsSigned cs val) : Scans cs [.word cs] := by
  rcases h with h | ⟨ds, x, rfl, h, -⟩
  · exact scans_numeral h
  · refine scans_word (by simp) fun c hc => ?_
    rcases List.mem_cons.mp hc with rfl | hc
    · simp [IsPlain]
    · exact plain_of_spells (by decide) h c hc

theorem signedField_of_spells {n : Nat} {val : BitVec n} {cs : List Char} (h : SpellsSigned cs val) :
    signedField n (.word cs) = some val := by
  rcases h with h | ⟨ds, x, rfl, h, hx⟩
  · rw [signedField_of_numeral h, fitField_toNat]
  · have hle : x ≤ 2 ^ (n - 1) := by
      have := BitVec.le_toInt val
      rw [hx] at this
      exact_mod_cast (by linarith : (x : Int) ≤ 2 ^ (n - 1))
    simp [signedField, someDigits_of_spells (by decide) h, hle, ← hx]

theorem scans_bool {val : BitVec 1} {cs : List Char} (h : SpellsBool cs val) : Scans cs [.word cs] := by
  rcases h with h | ⟨rfl, -⟩ | ⟨rfl, -⟩
  · exact scans_numeral h
  · exact scans_word (by decide) (by simp [IsPlain])
  · exact scans_word (by decide) (by simp [IsPlain])

theorem boolField_of_spells {val : BitVec 1} {cs : List Char} (h : SpellsBool cs val) :
    boolField (.word cs) = some val := by
  rcases h with h | ⟨rfl, rfl⟩ | ⟨rfl, rfl⟩
  · rw [boolField_of_numeral h, fitField_toNat]
  · decide
  · decide

/-- Byte pairs are scanned into words that read as the bytes. -/
theorem scan_pairs {cs : List Char} {data : List Byte} (h : SpellsPairs cs data) :
    ∃ ws : List Token, Scans cs ws ∧
      ∀ ts, bracedBytes (ws ++ .closeBrace :: ts) = some (data, ts) := by
  have two : ∀ {c d : Char} {b : Byte}, SpellsIn 16 [c, d] b.toNat →
      Scans [c, d] [.word [c, d]] ∧ ∀ ts rest bs, bracedBytes ts = some (bs, rest) →
        bracedBytes (.word [c, d] :: ts) = some (b :: bs, rest) := by
    intro c d b h
    refine ⟨scans_word (by simp) (plain_of_spells (by decide) h), fun ts rest bs hb => ?_⟩
    simp [bracedBytes, someDigits_of_spells (by decide) h, hb]
  induction h with
  | none => exact ⟨[], fun rest _ => by simp, fun ts => rfl⟩
  | last c d b h => exact ⟨_, (two h).1, fun ts => (two h).2 _ _ _ rfl⟩
  | more c d b h gap cs bs hs hb ih =>
    obtain ⟨ws, hw, hr⟩ := ih
    refine ⟨.word [c, d] :: ws, fun rest he => ?_, fun ts => (two h).2 _ _ _ (hr ts)⟩
    have h1 := (two h).1 (spaces (gap + 1) ++ (cs ++ rest)) (endsWord_cons (by simp [IsPlain]) _)
    rw [scan_spaces, hw rest he, Option.map_map] at h1
    simpa [Function.comp_def] using h1

theorem scan_string {s : List Char} (h : ∀ c ∈ s, c ≠ '"' ∧ c.toNat < 128) (acc rest : List Char) :
    scan (.string acc) (s ++ '"' :: rest) = (scan (.plain []) rest).map (.quoted (acc ++ s) :: ·) := by
  induction s generalizing acc with
  | nil => simp [scan]
  | cons c s ih =>
    have hc := h c (by simp)
    rw [List.cons_append, scan, if_neg hc.1, if_pos hc.2, ih fun d hd => h d (by simp [hd])]
    simp

theorem scan_openBrace (cs : List Char) :
    scan (.plain []) (Char.ofNat 123 :: cs) = (scan (.plain []) cs).map (.openBrace :: ·) := by
  simp [scan, flushWord]

theorem scan_closeBrace (cs : List Char) :
    scan (.plain []) (Char.ofNat 125 :: cs) = (scan (.plain []) cs).map (.closeBrace :: ·) := by
  simp [scan, flushWord]

/-- A byte sequence is scanned into tokens that read as its bytes. -/
theorem scans_bytes {cs : List Char} {data : List Byte} (h : SpellsBytes cs data) :
    ∃ ws : List Token, Scans cs ws ∧ ∀ ts, bytesOperand (ws ++ ts) = some (data, ts) := by
  rcases h with ⟨ps, rfl, h⟩ | ⟨s, rfl, h, rfl⟩
  · obtain ⟨ws, hw, hr⟩ := scan_pairs h
    refine ⟨.openBrace :: (ws ++ [.closeBrace]), fun rest he => ?_, fun ts => ?_⟩
    · have h1 := hw (Char.ofNat 125 :: rest) (endsWord_cons (by simp [IsPlain]) _)
      simp only [List.cons_append, List.append_assoc, List.nil_append]
      rw [scan_openBrace, h1, scan_closeBrace]
      simp [Function.comp_def]
    · simp only [List.cons_append, List.append_assoc, List.nil_append, bytesOperand]
      exact hr ts
  · refine ⟨[.quoted s], fun rest _ => ?_, fun ts => rfl⟩
    have h1 := scan_string h [] rest
    simp only [List.cons_append, List.append_assoc, List.nil_append] at h1 ⊢
    simp only [scan, Char.reduceEq, or_self, if_false, reduceIte]
    rw [h1]
    simp [Function.comp_def, flushWord]

/-- Operands' tokens with a comma between them. -/
def commaTokens : List (List Token) → List Token
  | [] => []
  | [t] => t
  | t :: u :: ts => t ++ .comma :: commaTokens (u :: ts)

/-- Operand texts separated by commas are scanned into their tokens separated by commas. -/
theorem scans_commaSeparated {texts : List (List Char)} {cs : List Char} (h : CommaSeparated texts cs)
    {tokens : List (List Token)} (ht : List.Forall₂ Scans texts tokens) : Scans cs (commaTokens tokens) := by
  induction h generalizing tokens with
  | none =>
    cases ht
    exact fun rest _ => by simp [commaTokens]
  | last t =>
    cases ht with
    | cons h hs =>
      cases hs
      exact h
  | more t gap ts cs h hne ih =>
    cases ht with
    | cons h1 hs =>
      rename_i w ws
      have h2 := ih hs
      cases ws with
      | nil => cases hs; exact absurd rfl hne
      | cons u ws =>
        intro rest he
        have h3 := h1 (',' :: (spaces gap ++ (cs ++ rest))) (endsWord_cons (by simp [IsPlain]) _)
        simp only [scan, Char.reduceEq, or_self, if_false, reduceIte] at h3
        rw [scan_spaces, h2 rest he] at h3
        simpa [Function.comp_def, commaTokens, flushWord] using h3

/-- A command's line is scanned into its name and its operands' tokens. -/
theorem scan_line {name operands comment : List Char} {texts : List (List Char)} {tokens : List (List Token)}
    {before after : Nat} (hn : name ≠ []) (hp : ∀ c ∈ name, IsPlain c) (ho : CommaSeparated texts operands)
    (ht : List.Forall₂ Scans texts tokens) (hc : IsComment comment) (hb : texts ≠ [] → 0 < before) :
    scan (.plain []) (name ++ (spaces before ++ (operands ++ (spaces after ++ comment)))) =
      some (.word name :: commaTokens tokens) := by
  have hend : EndsWord (spaces before ++ (operands ++ (spaces after ++ comment))) := by
    cases before with
    | succ n => exact endsWord_cons (by simp [IsPlain]) _
    | zero =>
      cases texts with
      | nil => cases ho; exact endsWord_spaces_comment hc after
      | cons t ts => exact absurd (hb (by simp)) (Nat.lt_irrefl 0)
  rw [scans_word hn hp _ hend, scan_spaces, scans_commaSeparated ho ht _ (endsWord_spaces_comment hc after),
    scan_spaces, scan_comment hc]
  simp

end Sys2Proof.Machine
end

