-- ==== Sys2Proof/Laws/Decode.lean ====
section
/-! SUPPORT. Reading a field of the operand record gives back what was written there. -/

namespace Sys2Proof

theorem bitsOfNat_length (n x : Nat) : (bitsOfNat n x).length = n := by
  induction n generalizing x with
  | zero => rfl
  | succ n ih => simp [bitsOfNat, ih]

theorem natOfBits_lt (bs : List Bool) : natOfBits bs < 2 ^ bs.length := by
  induction bs with
  | nil => simp [natOfBits]
  | cons b bs ih =>
    have hb : b.toNat ≤ 1 := Bool.toNat_le b
    rw [natOfBits, List.length_cons, pow_succ]
    omega

/-- The bits of a number give back its low `n` bits. -/
theorem natOfBits_bitsOfNat (n x : Nat) : natOfBits (bitsOfNat n x) = x % 2 ^ n := by
  induction n generalizing x with
  | zero => simp [bitsOfNat, natOfBits, Nat.mod_one]
  | succ n ih =>
    rw [bitsOfNat, natOfBits, ih, pow_succ', Nat.mod_mul]
    rcases Nat.mod_two_eq_zero_or_one x with h | h <;> simp [h]

/-- A list of bits is the bits of its number. -/
theorem bitsOfNat_natOfBits (bs : List Bool) : bitsOfNat bs.length (natOfBits bs) = bs := by
  induction bs with
  | nil => rfl
  | cons b bs ih =>
    rw [List.length_cons, natOfBits, bitsOfNat]
    have h2 : (b.toNat + 2 * natOfBits bs) / 2 = natOfBits bs := by
      have hb : b.toNat ≤ 1 := Bool.toNat_le b
      omega
    rw [h2, ih]
    cases b <;> simp

theorem fieldBits_length {n : Nat} (x : BitVec n) : (fieldBits x).length = n := bitsOfNat_length ..

theorem bytesBits_length (data : List Byte) : (bytesBits data).length = 8 * data.length := by
  induction data with
  | nil => rfl
  | cons b data ih => simp [bytesBits, fieldBits_length, ih]; omega

/-- Reading a field that stands first. -/
theorem readField_fieldBits {n : Nat} (x : BitVec n) (rest : List Bool) :
    readField n (fieldBits x ++ rest) = some (x, rest) := by
  have hl := fieldBits_length x
  rw [readField, if_pos (by simp [hl]), List.take_left' hl, List.drop_left' hl, fieldBits, natOfBits_bitsOfNat,
    Nat.mod_eq_of_lt x.isLt, BitVec.ofNat_toNat, BitVec.setWidth_eq]

/-- What a read field says of the record. -/
theorem readField_eq_some {n : Nat} {bs rest : List Bool} {x : BitVec n} (h : readField n bs = some (x, rest)) :
    bs = fieldBits x ++ rest := by
  rw [readField] at h
  split at h
  case isFalse => cases h
  case isTrue hn =>
    injection h with h
    injection h with hx hr
    have ht : (bs.take n).length = n := by simp [hn]
    have hb : natOfBits (bs.take n) < 2 ^ n := by
      have := natOfBits_lt (bs.take n)
      rwa [ht] at this
    have hf : fieldBits x = bs.take n := by
      rw [fieldBits, ← hx, BitVec.toNat_ofNat, Nat.mod_eq_of_lt hb]
      conv_lhs => rw [← ht]
      conv_rhs => rw [← bitsOfNat_natOfBits (bs.take n)]
      rw [ht]
    rw [hf, ← hr, List.take_append_drop]

/-- Reading bytes that stand first. -/
theorem readBytes_bytesBits (data : List Byte) (rest : List Bool) :
    readBytes data.length (bytesBits data ++ rest) = some (data, rest) := by
  induction data with
  | nil => rfl
  | cons b data ih =>
    rw [List.length_cons, bytesBits, List.append_assoc, readBytes, readField_fieldBits]
    simp only [ih]

/-- What read bytes say of the record. -/
theorem readBytes_eq_some {n : Nat} {bs rest : List Bool} {data : List Byte}
    (h : readBytes n bs = some (data, rest)) : bs = bytesBits data ++ rest ∧ data.length = n := by
  induction n generalizing bs data with
  | zero => cases h; exact ⟨rfl, rfl⟩
  | succ n ih =>
    rw [readBytes] at h
    split at h
    · cases h
    · rename_i b r hb
      split at h
      · cases h
      · rename_i d r' hd
        cases h
        obtain ⟨hr, hl⟩ := ih hd
        exact ⟨by rw [readField_eq_some hb, hr, bytesBits, List.append_assoc], by simp [hl]⟩

/-- Reading a byte sequence after its length field, where the length fits the field. -/
theorem readSized_sizedBits {n : Nat} (data : List Byte) (rest : List Bool) (h : data.length < 2 ^ n) :
    readSized n (sizedBits n data ++ rest) = some (data, rest) := by
  rw [readSized, sizedBits, List.append_assoc, readField_fieldBits]
  simp only [BitVec.toNat_ofNat, Nat.mod_eq_of_lt h]
  exact readBytes_bytesBits data rest

/-- What a read byte sequence says of the record. -/
theorem readSized_eq_some {n : Nat} {bs rest : List Bool} {data : List Byte}
    (h : readSized n bs = some (data, rest)) : bs = sizedBits n data ++ rest ∧ data.length < 2 ^ n := by
  rw [readSized] at h
  split at h
  · cases h
  · rename_i len r hr
    obtain ⟨hb, hl⟩ := readBytes_eq_some h
    refine ⟨?_, hl ▸ len.isLt⟩
    rw [readField_eq_some hr, hb, sizedBits, hl, BitVec.ofNat_toNat, BitVec.setWidth_eq, List.append_assoc]

/-- Reading four lanes that stand first. -/
theorem readLanes_lanesBits (v : Variant) (a1 a2 a3 a4 : v.Word) (rest : List Bool) :
    readLanes v (lanesBits a1 a2 a3 a4 ++ rest) = some ((a1, a2, a3, a4), rest) := by
  simp only [readLanes, lanesBits, List.append_assoc, readField_fieldBits]

/-- What four read lanes say of the record. -/
theorem readLanes_eq_some {v : Variant} {a1 a2 a3 a4 : v.Word} {bs rest : List Bool}
    (h : readLanes v bs = some ((a1, a2, a3, a4), rest)) : bs = lanesBits a1 a2 a3 a4 ++ rest := by
  unfold readLanes at h
  split at h
  · cases h
  · rename_i b1 r1 h1
    split at h
    · cases h
    · rename_i b2 r2 h2
      split at h
      · cases h
      · rename_i b3 r3 h3
        split at h
        · cases h
        · rename_i b4 r4 h4
          cases h
          rw [readField_eq_some h1, readField_eq_some h2, readField_eq_some h3, readField_eq_some h4]
          simp [lanesBits]

/-- A record of one field, read whole. -/
theorem readOne_fieldBits {n : Nat} (f : BitVec n → Instr) (x : BitVec n) :
    readOne n f (fieldBits x) = some (f x, []) := by
  have h := readField_fieldBits x []
  rw [List.append_nil] at h
  simp [readOne, h]

/-- What a read record of one field says of it. -/
theorem readOne_eq_some {n : Nat} {f : BitVec n → Instr} {bs : List Bool} {i : Instr}
    (h : readOne n f bs = some (i, [])) : ∃ x, i = f x ∧ bs = fieldBits x := by
  simp only [readOne, Option.map_eq_some_iff] at h
  obtain ⟨⟨x, rest⟩, hx, he⟩ := h
  injection he with hi hr
  refine ⟨x, hi.symm, ?_⟩
  rw [readField_eq_some hx]
  simp_all

/-- What a decoded transaction was. -/
theorem decode_eq_ok {v : Variant} {w : CmdWord} {record : List Bool} {i : Instr} (h : decode v w record = .ok i) :
    ∃ c, decodeWord w = some c ∧ readOperands v c record = some (i, []) := by
  rw [decode] at h
  split at h
  · cases h
  · rename_i c hc
    refine ⟨c, hc, ?_⟩
    split at h
    · rename_i j hj
      cases h
      exact hj
    · cases h
    · cases h

end Sys2Proof
end

