-- ==== Sys2Proof/Laws/Operands.lean ====
section
/-! SUPPORT. What the loop over units and the little-endian words and bytes compute. -/

namespace Sys2Proof.Machine

open Sys2Proof

section Eat

variable {α : Type} {n : Nat} {f : α → List Byte → α}

/-- With fuel for every unit, the loop has consumed the first `len/n` units and leaves the bytes after them. -/
theorem eatFuel_eq (hn : 0 < n) (fuel : Nat) (a : α) (s : List Byte) (hf : s.length / n ≤ fuel) :
    eatFuel n f fuel a s =
      ((List.range (s.length / n)).foldl (fun a k => f a ((s.drop (n * k)).take n)) a,
        s.drop (n * (s.length / n))) := by
  induction fuel generalizing a s with
  | zero =>
    have h0 : s.length / n = 0 := Nat.le_zero.mp hf
    simp [eatFuel, h0]
  | succ fuel ih =>
    by_cases h : n ≤ s.length
    · have hq : s.length / n = (s.length - n) / n + 1 := by
        rw [← Nat.add_div_right _ hn]
        congr 1
        omega
      have hlen : (s.drop n).length / n = (s.length - n) / n := by simp
      rw [eatFuel, if_pos h, ih _ _ (by rw [hlen]; omega), hq, List.range_succ_eq_map, List.foldl_cons, List.foldl_map,
        hlen]
      simp [Nat.mul_add, Nat.add_comm]
    · have h0 : s.length / n = 0 := Nat.div_eq_of_lt (by omega)
      simp [eatFuel, h, h0]

/-- The loop's result: the whole units folded in order. -/
theorem eat_fst (hn : 0 < n) (a : α) (s : List Byte) :
    (eat n f a s).1 = (List.range (s.length / n)).foldl (fun a k => f a ((s.drop (n * k)).take n)) a := by
  rw [eat, eatFuel_eq hn _ _ _ (Nat.div_le_self _ _)]

/-- The loop's remainder: the bytes after the whole units. -/
theorem eat_snd (hn : 0 < n) (a : α) (s : List Byte) : (eat n f a s).2 = s.drop (n * (s.length / n)) := by
  rw [eat, eatFuel_eq hn _ _ _ (Nat.div_le_self _ _)]

/-- The remainder has as many bytes as the length leaves modulo the unit. -/
theorem eat_snd_length (hn : 0 < n) (a : α) (s : List Byte) : (eat n f a s).2.length = s.length % n := by
  rw [eat_snd hn, List.length_drop]
  have := Nat.div_add_mod s.length n
  omega

/-- A sequence shorter than a unit is left as it is. -/
theorem eat_of_lt (a : α) (s : List Byte) (h : s.length < n) : eat n f a s = (a, s) := by
  unfold eat
  cases s.length with
  | zero => rfl
  | succ k => rw [eatFuel, if_neg (by omega)]

/-- Any fuel that covers the length gives the loop's result. -/
theorem eatFuel_eq_eat (hn : 0 < n) (fuel : Nat) (a : α) (s : List Byte) (hf : s.length ≤ fuel) :
    eatFuel n f fuel a s = eat n f a s := by
  rw [eat, eatFuel_eq hn _ _ _ (Nat.div_le_self _ _), eatFuel_eq hn _ _ _ ((Nat.div_le_self _ _).trans hf)]

/-- One turn of the loop. -/
theorem eat_of_le (hn : 0 < n) (a : α) (s : List Byte) (h : n ≤ s.length) :
    eat n f a s = eat n f (f a (s.take n)) (s.drop n) := by
  rw [← eatFuel_eq_eat hn s.length (f a (s.take n)) (s.drop n) (by simp)]
  conv_lhs => rw [← eatFuel_eq_eat hn (s.length + 1) a s (by omega), eatFuel, if_pos h]

/-- Feeding a sequence in two parts, the second after the first's remainder, is feeding it whole. -/
theorem eat_append (hn : 0 < n) (a : α) (s t : List Byte) :
    eat n f (eat n f a s).1 ((eat n f a s).2 ++ t) = eat n f a (s ++ t) := by
  induction hl : s.length using Nat.strongRecOn generalizing a s with
  | _ l ih =>
    by_cases h : n ≤ s.length
    · rw [eat_of_le hn a s h, eat_of_le hn a (s ++ t) (by simp; omega),
        ih (s.drop n).length (by simp; omega) _ _ rfl, List.take_append_of_le_length h, List.drop_append_of_le_length h]
    · rw [eat_of_lt a s (by omega)]

end Eat

/-! ## Little-endian words and bytes -/

theorem leNat_lt (s : List Byte) : leNat s < 256 ^ s.length := by
  induction s with
  | nil => simp [leNat]
  | cons b s ih =>
    have hb := b.isLt
    rw [leNat, List.length_cons, pow_succ]
    omega

/-- The word of a sequence, as the sum R10 writes. -/
theorem leNat_eq_sum (s : List Byte) :
    leNat s = ((List.range s.length).map fun k => (s.getD k 0).toNat * 2 ^ (8 * k)).sum := by
  induction s with
  | nil => simp [leNat]
  | cons b s ih =>
    have hp : ∀ k, 2 ^ (8 * (k + 1)) = 256 * 2 ^ (8 * k) := fun k => by
      rw [Nat.mul_add, pow_add]
      omega
    rw [leNat, ih, List.length_cons, List.range_succ_eq_map, List.map_cons, List.sum_cons, List.map_map,
      ← List.sum_map_mul_left]
    simp [Function.comp_def, hp, Nat.mul_left_comm]

theorem leBytes_length (n x : Nat) : (leBytes n x).length = n := by
  induction n generalizing x with
  | zero => rfl
  | succ n ih => simp [leBytes, ih]

/-- The bytes of a number give back its low `8n` bits. -/
theorem leNat_leBytes (n x : Nat) : leNat (leBytes n x) = x % 256 ^ n := by
  induction n generalizing x with
  | zero => simp [leBytes, leNat, Nat.mod_one]
  | succ n ih =>
    rw [leBytes, leNat, ih, BitVec.toNat_ofNat, show 256 ^ (n + 1) = 256 * 256 ^ n from pow_succ' .., Nat.mod_mul]

/-- Byte `k` of a number. -/
theorem leBytes_eq_map (n x : Nat) : leBytes n x = (List.range n).map fun k => BitVec.ofNat 8 (x / 256 ^ k) := by
  induction n generalizing x with
  | zero => rfl
  | succ n ih =>
    rw [leBytes, ih, List.range_succ_eq_map, List.map_cons, List.map_map]
    simp [Function.comp_def, Nat.div_div_eq_div_mul, pow_succ']

end Sys2Proof.Machine
end

