-- ==== Sys2Proof/Laws/State.lean ====
section
/-! SUPPORT. What each update of the state leaves in each field. -/

namespace Sys2Proof.Machine

open Sys2Proof

variable (s : State) (b : Block) (r : Response) (e : Status) (o : Option Result)

@[simp] theorem respond_before : (s.respond r).before = s.before := rfl
@[simp] theorem respond_here : (s.respond r).here = s.here := rfl
@[simp] theorem respond_after : (s.respond r).after = s.after := rfl
@[simp] theorem respond_pending : (s.respond r).pending = s.pending := rfl
@[simp] theorem respond_responses :
    (s.respond r).responses = s.responses ++ [{ port := s.port, response := r }] := rfl

@[simp] theorem complete_before : (s.complete b o).before = s.before := rfl
@[simp] theorem complete_here : (s.complete b o).here = b := rfl
@[simp] theorem complete_after : (s.complete b o).after = s.after := rfl
@[simp] theorem complete_pending : (s.complete b o).pending = s.pending := rfl
@[simp] theorem complete_responses :
    (s.complete b o).responses = s.responses ++ [{ port := s.port, response := { status := .ok, result := o } }] := rfl

@[simp] theorem raise_before : (s.raise e).before = s.before := rfl
@[simp] theorem raise_here : (s.raise e).here = s.here := rfl
@[simp] theorem raise_after : (s.raise e).after = s.after := rfl
@[simp] theorem raise_pending : (s.raise e).pending = s.pending := rfl
@[simp] theorem raise_responses :
    (s.raise e).responses = s.responses ++ [{ port := s.port, response := { status := e, result := none } }] := rfl

@[simp] theorem absorb_variant (data : List Byte) : (b.absorb data).variant = b.variant := rfl
@[simp] theorem disposed_variant : b.disposed.variant = b.variant := rfl
@[simp] theorem disposed_life : b.disposed.hasher.life = .destroyed := rfl
@[simp] theorem startHasher_life (v : Variant) (seed : v.Word) : (startHasher v seed).life = .active := rfl

@[simp] theorem withFetchWord_here (nbits w : Nat) : (s.withFetchWord nbits w).here = s.here := rfl
@[simp] theorem withFetchWord_responses (nbits w : Nat) : (s.withFetchWord nbits w).responses = s.responses := rfl

end Sys2Proof.Machine
end

