-- ==== Sys2Proof/Laws/Ops.lean ====
section
/-! SUPPORT. What each shared operation can do, and what a command and a step can do. -/

namespace Sys2Proof.Machine

open Sys2Proof

/-! ## The addressed instance and its answer -/

theorem complete_eq_answered (s : State) (b : Block) (o : Option Result) :
    s.complete b o = s.answered b { status := .ok, result := o } := rfl

theorem raise_eq_answered (s : State) (e : Status) : s.raise e = s.answered s.here (.failed e) := rfl

/-- The elements of an instance of the variant asked for. -/
theorem hasherAs_self (v : Variant) (h : Hasher v.width) : Block.hasherAs v { variant := v, hasher := h } = some h := by
  cases v <;> rfl

/-- Where an instance has elements of a variant, it is of that variant and they are its elements. -/
theorem hasherAs_eq_some {v : Variant} {b : Block} {h : Hasher v.width} (hb : b.hasherAs v = some h) :
    b = { variant := v, hasher := h } := by
  obtain ⟨w, g⟩ := b
  cases v <;> cases w <;> cases hb <;> rfl

theorem hasherAs_isSome_iff (v : Variant) (b : Block) : (b.hasherAs v).isSome = decide (v = b.variant) := by
  obtain ⟨w, g⟩ := b
  cases v <;> cases w <;> rfl

/-- A command with operands of the addressed instance's width. -/
theorem performAs_of_here {v : Variant} {h : Hasher v.width} {s : State} (hs : s.here = { variant := v, hasher := h })
    (k : Hasher v.width → State) : s.performAs v true k = .next (k h) := by
  rw [State.performAs, hs, hasherAs_self]
  rfl

/-- Where a command with `W`-bit operands goes on, its operands fit and the addressed instance has their width. -/
theorem performAs_next {v : Variant} {fits : Bool} {s t : State} {k : Hasher v.width → State}
    (h : s.performAs v fits k = .next t) :
    fits = true ∧ ∃ g, s.here = { variant := v, hasher := g } ∧ t = k g := by
  rw [State.performAs] at h
  split at h
  · cases h
  · rename_i g hg
    split at h
    · rename_i hf
      cases h
      exact ⟨hf, g, hasherAs_eq_some hg, rfl⟩
    · cases h

/-- A command with `W`-bit operands never faults, and is refused only for its operands. -/
theorem performAs_cases (v : Variant) (fits : Bool) (s : State) (k : Hasher v.width → State) :
    (fits = true ∧ v = s.here.variant ∧ ∃ t, s.performAs v fits k = .next t) ∨
      ((fits && decide (v = s.here.variant)) = false ∧ s.performAs v fits k = .refused .malformedRecord) := by
  have hv := hasherAs_isSome_iff v s.here
  rw [State.performAs]
  split
  · rename_i hn
    rw [hn] at hv
    exact .inr ⟨by rw [← hv]; simp, rfl⟩
  · rename_i g hg
    rw [hg] at hv
    cases fits with
    | true => exact .inl ⟨rfl, by simpa using hv.symm, _, rfl⟩
    | false => exact .inr ⟨rfl, rfl⟩

theorem performWhen_next {fits : Bool} {s t : State} {k : State → State} (h : s.performWhen fits k = .next t) :
    fits = true ∧ t = k s := by
  rw [State.performWhen] at h
  split at h
  · rename_i hf
    cases h
    exact ⟨hf, rfl⟩
  · cases h

/-- The lifecycle check lets an Active instance's command through. -/
theorem whenActive_of_active {s k : State} (h : s.here.hasher.life = .active) : s.whenActive k = k := by
  simp only [State.whenActive, Block.life, h]

/-- The lifecycle check fails a Destroyed instance's command. -/
theorem whenActive_of_destroyed {s k : State} (h : s.here.hasher.life = .destroyed) :
    s.whenActive k = s.raise .invalidState := by
  simp only [State.whenActive, Block.life, h]

/-! ## What a command can do -/

/-- The ways a command that goes on can end: an error, a stateless result, or a change of the addressed instance's
elements that fits the command. -/
inductive Ends (i : Instr) (s : State) : State → Prop
  /-- An error of a command that the lifecycle does not allow (R129). -/
  | failed (h : i.command.stateless = false ∧ i.command ≠ .dispose ∧
      (i.command = .create ↔ s.here.hasher.life = .active)) :
      Ends i s (s.answered s.here (.failed .invalidState))
  /-- A result, no element written. -/
  | result (r : Result) (h : i.command.stateless = true ∨ i.command = .digest ∧ s.here.hasher.life = .active) :
      Ends i s (s.answered s.here (.doneWith r))
  /-- CREATE or RESET performed. -/
  | started (seed : s.here.variant.Word) (h : i.command = .create ∧ s.here.hasher.life = .destroyed ∨
      i.command = .reset ∧ s.here.hasher.life = .active) :
      Ends i s (s.answered { variant := s.here.variant, hasher := startHasher s.here.variant seed } .done)
  /-- DISPOSE performed. -/
  | disposed (h : i.command = .dispose) : Ends i s (s.answered s.here.disposed .done)
  /-- UPDATE performed. -/
  | fed (data : List Byte) (h : i.command.updates = true) (ha : s.here.hasher.life = .active) :
      Ends i s (s.answered (s.here.absorb data) .done)

theorem update_ends {i : Instr} (s : State) (data : List Byte) (hi : i.command.updates = true) :
    Ends i s (s.update data) := by
  rw [State.update]
  cases h : s.here.hasher.life with
  | active =>
    rw [whenActive_of_active h]
    exact .fed data hi h
  | destroyed =>
    rw [whenActive_of_destroyed h]
    refine .failed ⟨?_, ?_, ?_⟩ <;> revert hi <;> cases i.command <;> simp [Command.stateless, Command.updates, h]

/-- Every command that goes on ends in one of the ways of `Ends`. -/
theorem exec_ends {i : Instr} {s t : State} (h : exec i s = .next t) : Ends i s t := by
  cases i with
  | create v seed =>
    obtain ⟨-, g, hs, rfl⟩ := performAs_next h
    have hg : s.here.hasher.life = g.life := by rw [hs]
    cases hl : g.life with
    | active => exact .failed (by simp [Instr.command, Command.stateless, hg, hl])
    | destroyed =>
      have := Ends.started (i := .create v seed) (s := s) (hs ▸ seed) (.inl ⟨rfl, hg.trans hl⟩)
      obtain ⟨_, ⟨_, _⟩, _, _, _⟩ := s
      cases hs
      exact this
  | reset v seed =>
    obtain ⟨-, g, hs, rfl⟩ := performAs_next h
    cases hl : s.here.hasher.life with
    | active =>
      rw [whenActive_of_active hl]
      have := Ends.started (i := .reset v seed) (s := s) (hs ▸ seed) (.inr ⟨rfl, hl⟩)
      obtain ⟨_, ⟨_, _⟩, _, _, _⟩ := s
      cases hs
      exact this
    | destroyed =>
      rw [whenActive_of_destroyed hl]
      exact .failed (by simp [Instr.command, Command.stateless, hl])
  | dispose => cases h; exact .disposed rfl
  | updateBytes data => obtain ⟨-, rfl⟩ := performWhen_next h; exact update_ends s _ rfl
  | updateBool | updateByte | updateChar | updateShort | updateInt | updateLong | updateFloat | updateDouble =>
    cases h
    exact update_ends s _ rfl
  | digest =>
    cases h
    cases hl : s.here.hasher.life with
    | active =>
      rw [whenActive_of_active hl]
      exact .result _ (.inr ⟨rfl, hl⟩)
    | destroyed =>
      rw [whenActive_of_destroyed hl]
      exact .failed (by simp [Instr.command, Command.stateless, hl])
  | oneshot | mix | finalize =>
    obtain ⟨-, g, -, rfl⟩ := performAs_next h
    exact .result _ (.inl rfl)
  | encodeBool | encodeByte | encodeChar | encodeShort | encodeInt | encodeLong | encodeFloat | encodeDouble =>
    cases h
    exact .result _ (.inl rfl)

/-! ## What a step can do -/

/-- Presenting a transaction addresses the instance at its port and takes it from the list. -/
theorem present_eq_some {s t : State} {x : Transaction} {rest : List Transaction} (h : s.present x rest = some t) :
    ∃ b, s.instances[x.port]? = some b ∧
      t = { before := s.instances.take x.port, here := b, after := s.instances.drop (x.port + 1), pending := rest,
            responses := s.responses } := by
  simp only [State.present, State.select] at h
  split at h
  · cases h
  · rename_i u hu
    cases h
    split at hu
    · cases hu
    · rename_i b hb
      cases hu
      exact ⟨b, hb, rfl⟩

/-- Addressing an instance leaves the instances and their order as they were. -/
theorem instances_of_getElem? {l : List Block} {p : Nat} {b : Block} (h : l[p]? = some b) :
    l.take p ++ b :: l.drop (p + 1) = l := by
  obtain ⟨hp, rfl⟩ := List.getElem?_eq_some_iff.mp h
  rw [← List.drop_eq_getElem_cons hp, List.take_append_drop]

/-- A step that goes on waits, answers an illegal word, or performs the decoded command. -/
theorem step_cases {s t : State} (h : step s = .next t) :
    (s.pending = [] ∧ t = s) ∨
      ∃ x rest u, s.pending = x :: rest ∧ s.present x rest = some u ∧
        ((u.decodeHere x = .error .illegalCommand ∧ t = u.raise .illegalCommand) ∨
          ∃ i, u.decodeHere x = .ok i ∧ exec i u = .next t) := by
  rw [step] at h
  split at h
  · rename_i hp
    cases h
    exact .inl ⟨hp, rfl⟩
  · rename_i x rest hp
    split at h
    · cases h
    · rename_i u hu
      refine .inr ⟨x, rest, u, hp, hu, ?_⟩
      split at h
      · rename_i hd
        cases h
        exact .inl ⟨hd, rfl⟩
      · cases h
      · rename_i i hd
        exact .inr ⟨i, hd, h⟩

/-! ## Runs -/

theorem run_zero (m : Host.Core) (x : m.State) : m.run 0 x = .next x := by rw [Host.Core.run.eq_def]

/-- A run whose first step goes on is the run of the rest from there. -/
theorem run_succ_of_step {m : Host.Core} {n : Nat} {x y : m.State} (h : m.step x = .next y) :
    m.run (n + 1) x = m.run n y := by
  rw [Host.Core.run.eq_def]
  simp only [h]

end Sys2Proof.Machine
end

