-- ==== Sys2Proof/Laws/PerInstr.lean ====
section
/-! SUPPORT. A law of each instruction as syntax: the command word encode writes is its row's in spec/opcode_table.json
(30_encoding R59, R66). -/

namespace Sys2Proof.Laws

open Sys2Proof

/-- The table's word of each command (R59). -/
def TableWord.wordOf : Command → CmdWord
  | .create => 0x00000001
  | .reset => 0x00000002
  | .dispose => 0x00000003
  | .updateBytes => 0x00000010
  | .update .bool => 0x00000011
  | .update .byte => 0x00000111
  | .update .char => 0x00000211
  | .update .short => 0x00000311
  | .update .int => 0x00000411
  | .update .long => 0x00000511
  | .update .float => 0x00000611
  | .update .double => 0x00000711
  | .digest => 0x00000020
  | .oneshot => 0x00000021
  | .mix => 0x00000030
  | .finalize => 0x00000031
  | .encode .bool => 0x00000032
  | .encode .byte => 0x00000132
  | .encode .char => 0x00000232
  | .encode .short => 0x00000332
  | .encode .int => 0x00000432
  | .encode .long => 0x00000532
  | .encode .float => 0x00000632
  | .encode .double => 0x00000732

/-- Every command is written with its table word. -/
theorem TableWord.encodeWord_eq (c : Command) : encodeWord c = TableWord.wordOf c := by
  cases c with
  | update t => cases t <;> decide
  | encode t => cases t <;> decide
  | create | reset | dispose | updateBytes | digest | oneshot | mix | finalize => decide

/-- The `match` of the instruction's row of spec/opcode_table.json. -/
def TableWord.word : Instr → CmdWord
  | .create _ _ => 0x00000001
  | .reset _ _ => 0x00000002
  | .dispose => 0x00000003
  | .updateBytes _ => 0x00000010
  | .updateBool _ => 0x00000011
  | .updateByte _ => 0x00000111
  | .updateChar _ => 0x00000211
  | .updateShort _ => 0x00000311
  | .updateInt _ => 0x00000411
  | .updateLong _ => 0x00000511
  | .updateFloat _ => 0x00000611
  | .updateDouble _ => 0x00000711
  | .digest => 0x00000020
  | .oneshot _ _ _ => 0x00000021
  | .mix _ _ _ _ _ _ => 0x00000030
  | .finalize _ _ _ _ _ _ _ _ => 0x00000031
  | .encodeBool _ => 0x00000032
  | .encodeByte _ => 0x00000132
  | .encodeChar _ => 0x00000232
  | .encodeShort _ => 0x00000332
  | .encodeInt _ => 0x00000432
  | .encodeLong _ => 0x00000532
  | .encodeFloat _ => 0x00000632
  | .encodeDouble _ => 0x00000732

/-- The instruction is written with its table word. -/
def TableWord.Statement (i : Instr) : Prop := (encode i).1 = TableWord.word i

theorem TableWord.create (v : Variant) (seed : v.Word) : TableWord.Statement (.create v seed) :=
  TableWord.encodeWord_eq .create

theorem TableWord.reset (v : Variant) (seed : v.Word) : TableWord.Statement (.reset v seed) :=
  TableWord.encodeWord_eq .reset

theorem TableWord.dispose : TableWord.Statement .dispose := TableWord.encodeWord_eq .dispose

theorem TableWord.updateBytes (data : List Byte) : TableWord.Statement (.updateBytes data) :=
  TableWord.encodeWord_eq .updateBytes

theorem TableWord.updateBool (val : BitVec 1) : TableWord.Statement (.updateBool val) :=
  TableWord.encodeWord_eq (.update .bool)

theorem TableWord.updateByte (val : BitVec 8) : TableWord.Statement (.updateByte val) :=
  TableWord.encodeWord_eq (.update .byte)

theorem TableWord.updateChar (val : BitVec 16) : TableWord.Statement (.updateChar val) :=
  TableWord.encodeWord_eq (.update .char)

theorem TableWord.updateShort (val : BitVec 16) : TableWord.Statement (.updateShort val) :=
  TableWord.encodeWord_eq (.update .short)

theorem TableWord.updateInt (val : BitVec 32) : TableWord.Statement (.updateInt val) :=
  TableWord.encodeWord_eq (.update .int)

theorem TableWord.updateLong (val : BitVec 64) : TableWord.Statement (.updateLong val) :=
  TableWord.encodeWord_eq (.update .long)

theorem TableWord.updateFloat (val : BitVec 32) : TableWord.Statement (.updateFloat val) :=
  TableWord.encodeWord_eq (.update .float)

theorem TableWord.updateDouble (val : BitVec 64) : TableWord.Statement (.updateDouble val) :=
  TableWord.encodeWord_eq (.update .double)

theorem TableWord.digest : TableWord.Statement .digest := TableWord.encodeWord_eq .digest

theorem TableWord.oneshot (v : Variant) (seed : v.Word) (data : List Byte) : TableWord.Statement (.oneshot v seed data) :=
  TableWord.encodeWord_eq .oneshot

theorem TableWord.mix (v : Variant) (a1 a2 a3 a4 : v.Word) (blk : List Byte) : TableWord.Statement (.mix v a1 a2 a3 a4 blk) :=
  TableWord.encodeWord_eq .mix

theorem TableWord.finalize (v : Variant) (a1 a2 a3 a4 : v.Word) (tot : BitVec 64) (tail : List Byte) (seed : v.Word) : TableWord.Statement (.finalize v a1 a2 a3 a4 tot tail seed) :=
  TableWord.encodeWord_eq .finalize

theorem TableWord.encodeBool (val : BitVec 1) : TableWord.Statement (.encodeBool val) :=
  TableWord.encodeWord_eq (.encode .bool)

theorem TableWord.encodeByte (val : BitVec 8) : TableWord.Statement (.encodeByte val) :=
  TableWord.encodeWord_eq (.encode .byte)

theorem TableWord.encodeChar (val : BitVec 16) : TableWord.Statement (.encodeChar val) :=
  TableWord.encodeWord_eq (.encode .char)

theorem TableWord.encodeShort (val : BitVec 16) : TableWord.Statement (.encodeShort val) :=
  TableWord.encodeWord_eq (.encode .short)

theorem TableWord.encodeInt (val : BitVec 32) : TableWord.Statement (.encodeInt val) :=
  TableWord.encodeWord_eq (.encode .int)

theorem TableWord.encodeLong (val : BitVec 64) : TableWord.Statement (.encodeLong val) :=
  TableWord.encodeWord_eq (.encode .long)

theorem TableWord.encodeFloat (val : BitVec 32) : TableWord.Statement (.encodeFloat val) :=
  TableWord.encodeWord_eq (.encode .float)

theorem TableWord.encodeDouble (val : BitVec 64) : TableWord.Statement (.encodeDouble val) :=
  TableWord.encodeWord_eq (.encode .double)

end Sys2Proof.Laws
end

