-- ==== Sys2Proof/Tests/Slice0.lean ====
section
/-! SUPPORT. Tests with results taken from the spec: its encodings, its corner cases and the vectors of
95_test_vectors; and, for every statement with hypotheses, a witness that meets them. -/

namespace Sys2Proof.Tests

open Sys2Proof Sys2Proof.Machine

/- The tests are elaborated one after another: each evaluation on a thread of its own takes more memory than it saves
time. -/
set_option Elab.async false

/-! ## Helpers -/

/-- `seqN` of 95_test_vectors. -/
def seqBytes (n : Nat) : List Byte := (List.range n).map (BitVec.ofNat 8)

/-- A platform of one instance, with nothing presented. -/
def oneBlock (b : Block) : State where
  before := []
  here := b
  after := []
  pending := []
  responses := []

/-- A platform of one instance at power-on. -/
def fresh (v : Variant) : State := oneBlock (Block.powerOn v)

/-- A platform of one instance right after CREATE. -/
def active (v : Variant) (seed : v.Word) : State := oneBlock { variant := v, hasher := startHasher v seed }

/-- A platform of one Active instance with given residual and total. -/
def holding (v : Variant) (seed : v.Word) (res : List Byte) (total : BitVec 64) : State :=
  oneBlock { variant := v, hasher := { startHasher v seed with res := res, total := total } }

/-- An Active XXH64 instance at port 0, addressed, and a Destroyed XXH32 instance at port 1. -/
def pair : State := { active .xxh64 1#64 with after := [Block.powerOn .xxh32] }

/-- The host about to present some transactions. -/
def presenting (s : State) (ts : List Transaction) : State := { s with pending := ts }

/-- A command word alone, at port 0. -/
def wordAt0 (w : CmdWord) : Transaction := { port := 0, word := w, record := [] }

/-- The last response, where the outcome is a next state. -/
def replyOf : Host.Outcome State Fault Refusal → Option Response
  | .next s => s.responses.getLast?.map (·.response)
  | .fault _ => none
  | .refused _ => none

/-- The addressed instance, where the outcome is a next state. -/
def hereOf : Host.Outcome State Fault Refusal → Option Block
  | .next s => some s.here
  | .fault _ => none
  | .refused _ => none

/-- The accumulators, residual and total of the addressed instance, where it is XXH32. -/
def file32 (o : Host.Outcome State Fault Refusal) : Option (Lanes 32 × List Byte × BitVec 64) :=
  match hereOf o with
  | some ⟨.xxh32, h⟩ => some (h.lanes, h.res, h.total)
  | _ => none

/-- The accumulators, residual and total of the addressed instance, where it is XXH64. -/
def file64 (o : Host.Outcome State Fault Refusal) : Option (Lanes 64 × List Byte × BitVec 64) :=
  match hereOf o with
  | some ⟨.xxh64, h⟩ => some (h.lanes, h.res, h.total)
  | _ => none

/-- A digest answered OK. -/
def ok (v : Variant) (d : v.Word) : Option Response := some (.doneWith (.digest v d))

/-! ## WellFormed refuses each ill-formed term (R56, R57) -/

theorem test_wellFormed_refuses_the_other_width :
    WellFormed .xxh32 (.create .xxh64 0#64) = false ∧ WellFormed .xxh64 (.reset .xxh32 0#32) = false ∧
    WellFormed .xxh32 (.oneshot .xxh64 0#64 []) = false ∧
    WellFormed .xxh64 (.mix .xxh32 0#32 0#32 0#32 0#32 (seqBytes 16)) = false ∧
    WellFormed .xxh64 (.finalize .xxh32 0#32 0#32 0#32 0#32 0 [] 0#32) = false := by decide

theorem test_wellFormed_refuses_a_block_of_another_length :
    WellFormed .xxh32 (.mix .xxh32 0#32 0#32 0#32 0#32 (seqBytes 15)) = false ∧
    WellFormed .xxh64 (.mix .xxh64 0#64 0#64 0#64 0#64 (seqBytes 33)) = false := by decide

theorem test_wellFormed_refuses_a_tail_of_a_block :
    WellFormed .xxh32 (.finalize .xxh32 0#32 0#32 0#32 0#32 0 (seqBytes 16) 0#32) = false ∧
    WellFormed .xxh64 (.finalize .xxh64 0#64 0#64 0#64 0#64 0 (seqBytes 32) 0#64) = false := by decide

theorem test_wellFormed_refuses_a_length_of_65_bits :
    WellFormed .xxh64 (.updateBytes (List.replicate (2 ^ 64) 0)) = false ∧
    WellFormed .xxh64 (.oneshot .xxh64 0#64 (List.replicate (2 ^ 64) 0)) = false := by
  have h : fitsLength (List.replicate (2 ^ 64) 0) = false := by
    rw [fitsLength, List.length_replicate]
    exact decide_eq_false (Nat.lt_irrefl _)
  exact ⟨h, by rw [WellFormed, h]; rfl⟩

/-! ## Decoding: RSV, PT and OP written out as R52 to R54 give them, and the record's bits as R57 and log 3 do -/

/-- `n` bits 0. -/
def zeros (n : Nat) : List Bool := List.replicate n false

/-- The eight bits of a byte, from bit 0 up. -/
def octet (b0 b1 b2 b3 b4 b5 b6 b7 : Bool) : List Bool := [b0, b1, b2, b3, b4, b5, b6, b7]

/-- The byte 0x61, "a": bits 0, 5 and 6. -/
def letterA : List Bool := octet true false false false false true true false

theorem test_decode_create :
    decode .xxh32 (0b00000000000000000000#20 ++ 0b0000#4 ++ 0b00000001#8) (true :: zeros 31) =
      .ok (.create .xxh32 1#32) := by rfl

theorem test_decode_reset :
    decode .xxh64 (0b00000000000000000000#20 ++ 0b0000#4 ++ 0b00000010#8) (zeros 63 ++ [true]) =
      .ok (.reset .xxh64 0x8000000000000000#64) := by rfl

theorem test_decode_dispose :
    decode .xxh32 (0b00000000000000000000#20 ++ 0b0000#4 ++ 0b00000011#8) [] = .ok .dispose := by rfl

theorem test_decode_update_bytes :
    decode .xxh32 (0b00000000000000000000#20 ++ 0b0000#4 ++ 0b00010000#8) (true :: zeros 63 ++ letterA) =
      .ok (.updateBytes [0x61]) ∧
    decode .xxh32 (0b00000000000000000000#20 ++ 0b0000#4 ++ 0b00010000#8) (true :: zeros 63) =
      .error .malformedRecord ∧
    decode .xxh32 (0b00000000000000000000#20 ++ 0b0000#4 ++ 0b00010000#8) (zeros 64 ++ letterA) =
      .error .malformedRecord := by
  exact ⟨rfl, rfl, rfl⟩

theorem test_decode_digest :
    decode .xxh64 (0b00000000000000000000#20 ++ 0b0000#4 ++ 0b00100000#8) [] = .ok .digest := by rfl

theorem test_decode_oneshot :
    decode .xxh32 (0b00000000000000000000#20 ++ 0b0000#4 ++ 0b00100001#8)
      (false :: true :: zeros 30 ++ (true :: zeros 63) ++ letterA) = .ok (.oneshot .xxh32 2#32 [0x61]) := by rfl

theorem test_decode_mix :
    decode .xxh32 (0b00000000000000000000#20 ++ 0b0000#4 ++ 0b00110000#8)
      (true :: zeros 31 ++ (false :: true :: zeros 30) ++ (true :: true :: zeros 30) ++ (zeros 2 ++ [true] ++ zeros 29)
        ++ letterA ++ zeros 120) =
      .ok (.mix .xxh32 1#32 2#32 3#32 4#32 (0x61 :: List.replicate 15 0)) := by decide +kernel

theorem test_decode_finalize :
    decode .xxh64 (0b00000000000000000000#20 ++ 0b0000#4 ++ 0b00110001#8)
      (true :: zeros 63 ++ (false :: true :: zeros 62) ++ (true :: true :: zeros 62) ++ (zeros 2 ++ [true] ++ zeros 61)
        ++ (zeros 5 ++ [true] ++ zeros 58) ++ (true :: zeros 4) ++ letterA ++ (zeros 63 ++ [true])) =
      .ok (.finalize .xxh64 1#64 2#64 3#64 4#64 32 [0x61] 0x8000000000000000#64) := by decide +kernel

theorem test_decode_update_primitives :
    decode .xxh32 (0b00000000000000000000#20 ++ 0b0000#4 ++ 0b00010001#8) [true] = .ok (.updateBool 1) ∧
    decode .xxh32 (0b00000000000000000000#20 ++ 0b0001#4 ++ 0b00010001#8) letterA = .ok (.updateByte 0x61) ∧
    decode .xxh32 (0b00000000000000000000#20 ++ 0b0010#4 ++ 0b00010001#8) (zeros 8 ++ letterA) =
      .ok (.updateChar 0x6100) ∧
    decode .xxh32 (0b00000000000000000000#20 ++ 0b0011#4 ++ 0b00010001#8) (letterA ++ zeros 8) =
      .ok (.updateShort 0x0061) ∧
    decode .xxh32 (0b00000000000000000000#20 ++ 0b0100#4 ++ 0b00010001#8) (zeros 24 ++ letterA) =
      .ok (.updateInt 0x61000000) ∧
    decode .xxh32 (0b00000000000000000000#20 ++ 0b0101#4 ++ 0b00010001#8) (zeros 56 ++ letterA) =
      .ok (.updateLong 0x6100000000000000) ∧
    decode .xxh32 (0b00000000000000000000#20 ++ 0b0110#4 ++ 0b00010001#8) (letterA ++ zeros 24) =
      .ok (.updateFloat 0x00000061) ∧
    decode .xxh32 (0b00000000000000000000#20 ++ 0b0111#4 ++ 0b00010001#8) (letterA ++ zeros 56) =
      .ok (.updateDouble 0x0000000000000061) := by
  exact ⟨rfl, rfl, rfl, rfl, rfl, rfl, rfl, rfl⟩

theorem test_decode_encode_primitives :
    decode .xxh64 (0b00000000000000000000#20 ++ 0b0000#4 ++ 0b00110010#8) [true] = .ok (.encodeBool 1) ∧
    decode .xxh64 (0b00000000000000000000#20 ++ 0b0001#4 ++ 0b00110010#8) letterA = .ok (.encodeByte 0x61) ∧
    decode .xxh64 (0b00000000000000000000#20 ++ 0b0010#4 ++ 0b00110010#8) (zeros 8 ++ letterA) =
      .ok (.encodeChar 0x6100) ∧
    decode .xxh64 (0b00000000000000000000#20 ++ 0b0011#4 ++ 0b00110010#8) (letterA ++ zeros 8) =
      .ok (.encodeShort 0x0061) ∧
    decode .xxh64 (0b00000000000000000000#20 ++ 0b0100#4 ++ 0b00110010#8) (zeros 24 ++ letterA) =
      .ok (.encodeInt 0x61000000) ∧
    decode .xxh64 (0b00000000000000000000#20 ++ 0b0101#4 ++ 0b00110010#8) (zeros 56 ++ letterA) =
      .ok (.encodeLong 0x6100000000000000) ∧
    decode .xxh64 (0b00000000000000000000#20 ++ 0b0110#4 ++ 0b00110010#8) (letterA ++ zeros 24) =
      .ok (.encodeFloat 0x00000061) ∧
    decode .xxh64 (0b00000000000000000000#20 ++ 0b0111#4 ++ 0b00110010#8) (letterA ++ zeros 56) =
      .ok (.encodeDouble 0x0000000000000061) := by
  exact ⟨rfl, rfl, rfl, rfl, rfl, rfl, rfl, rfl⟩

/-- Table words with empty byte sequences, and a word of no row. -/
theorem test_table_words :
    decodeTableWord 32 0x00000010 = some (.updateBytes []) ∧ decodeTableWord 32 0x00000411 = some (.updateInt 0) ∧
    decodeTableWord 32 0x00000811 = none := by decide +kernel

/-! ## The streaming commands -/

/-- L3-5 line 0: `V4` is 0 because `SEED` is `P1`. -/
theorem test_create_xxh32 :
    file32 (exec (.create .xxh32 0x9E3779B1#32) (fresh .xxh32)) =
      some ({ v1 := 0xC25ABDD9, v2 := 0x24234428, v3 := 0x9E3779B1, v4 := 0 }, [], 0) := by decide +kernel

/-- R95, example; V-ERR E11. -/
theorem test_create_xxh64 :
    file64 (exec (.create .xxh64 0#64) (fresh .xxh64)) =
      some ({ v1 := 0x60EA27EEADC0B5D6, v2 := 0xC2B2AE3D27D4EB4F, v3 := 0, v4 := 0x61C8864E7A143579 }, [], 0) ∧
    replyOf (exec (.create .xxh64 0#64) (active .xxh64 0#64)) = some { status := .invalidState, result := none } := by
  decide +kernel

/-- L3-3 line 8. -/
theorem test_reset_xxh32 :
    file32 (exec (.reset .xxh32 1#32) (holding .xxh32 0#32 [1, 2, 3] 19)) =
      some ({ v1 := 0x24234429, v2 := 0x85EBCA78, v3 := 0x00000001, v4 := 0x61C88650 }, [], 0) := by decide +kernel

/-- V-ERR E8. -/
theorem test_reset_destroyed :
    replyOf (exec (.reset .xxh32 0#32) (fresh .xxh32)) = some { status := .invalidState, result := none } ∧
    hereOf (exec (.reset .xxh32 0#32) (fresh .xxh32)) = some (Block.powerOn .xxh32) := by decide +kernel

/-- L3-3 lines 10 and 12. -/
theorem test_dispose :
    (hereOf (exec .dispose (active .xxh32 5#32))).map (fun b => b.hasher.life) = some .destroyed ∧
    replyOf (exec .dispose (fresh .xxh32)) = some .done := by decide +kernel

/-- V-STREAM 2, lines 1 and 2: an input shorter than a block that completes the residual is mixed. -/
theorem test_update_bytes_completes_the_residual :
    file32 (exec (.updateBytes ((seqBytes 16).drop 3)) (holding .xxh32 7#32 [0, 1, 2] 3)) =
      some ({ v1 := 0x82929CCB, v2 := 0x8C9D519B, v3 := 0x5F2BA0A4, v4 := 0x69365574 }, [], 16) := by decide +kernel

/-- L3-2 line 2. -/
theorem test_update_bytes_xxh64 :
    file64 (exec (.updateBytes ((seqBytes 32).drop 7)) (holding .xxh64 1#64 (seqBytes 7) 7)) =
      some ({ v1 := 0xB7AB209AC06B5E99, v2 := 0x86C930949FC32561, v3 := 0x8E1CA54B48A1553F, v4 := 0x5D3AB54527F91C07 },
        [], 32) := by decide +kernel

/-- L3-1 line 2, and R95's corner "empty-input digest" (V-KAT). -/
theorem test_digest :
    replyOf (exec .digest (holding .xxh64 0#64 [0x78, 0x78, 0x68, 0x61, 0x73, 0x68] 6)) =
      ok .xxh64 0x32DD38952C4BC720#64 ∧
    replyOf (exec .digest (active .xxh32 1#32)) = ok .xxh32 0x0B2CB792#32 := by decide +kernel

/-- V-ERR E7. -/
theorem test_digest_destroyed :
    replyOf (exec .digest (fresh .xxh32)) = some { status := .invalidState, result := none } := by decide +kernel

/-! ## The primitive updates (V-ENC BYTES; L3-3 and L3-5) -/

theorem test_update_bool :
    file32 (exec (.updateBool 1) (active .xxh32 0#32)) = some (initLanes .xxh32 0#32, [0x01], 1) ∧
    file32 (exec (.updateBool 0) (active .xxh32 0#32)) = some (initLanes .xxh32 0#32, [0x00], 1) := by decide +kernel

/-- L3-3 line 5: one byte completes a block. -/
theorem test_update_byte :
    file32 (exec (.updateByte 0x10)
      (holding .xxh32 0#32 [1, 2, 3, 4, 5, 6, 7, 8, 9, 10, 11, 12, 13, 14, 1] 15)) =
      some ({ v1 := 0x56F04F51, v2 := 0xC2C38A70, v3 := 0xA61BB979, v4 := 0x8FDD04F9 }, [], 16) := by decide +kernel

/-- R20, D11: `TOTAL` wraps to 0. -/
theorem test_update_byte_wraps_the_total :
    (file64 (exec (.updateByte 0xFF) (holding .xxh64 0#64 (seqBytes 31) 0xFFFFFFFFFFFFFFFF))).map (fun f => f.2) =
      some ([], 0) := by decide +kernel

theorem test_update_char :
    file64 (exec (.updateChar 0x20AC) (active .xxh64 0#64)) = some (initLanes .xxh64 0#64, [0xAC, 0x20], 2) := by
  decide +kernel

theorem test_update_short :
    file64 (exec (.updateShort 0x8000) (active .xxh64 0#64)) = some (initLanes .xxh64 0#64, [0x00, 0x80], 2) := by
  decide +kernel

/-- V-ENC, and V-ERR E10. -/
theorem test_update_int :
    file64 (exec (.updateInt 0x7FFFFFFF) (active .xxh64 0#64)) =
      some (initLanes .xxh64 0#64, [0xFF, 0xFF, 0xFF, 0x7F], 4) ∧
    replyOf (exec (.updateInt 0) (fresh .xxh64)) = some { status := .invalidState, result := none } := by decide +kernel

theorem test_update_long :
    file64 (exec (.updateLong 0x0123456789ABCDEF) (active .xxh64 0#64)) =
      some (initLanes .xxh64 0#64, [0xEF, 0xCD, 0xAB, 0x89, 0x67, 0x45, 0x23, 0x01], 8) := by decide +kernel

/-- R36, R114: a primitive split over two blocks, by its stream bytes: the last 15 zeros and its first byte, then 7. -/
theorem test_update_long_straddles_a_block :
    (file32 (exec (.updateLong 0x0807060504030200) (holding .xxh32 0#32 (List.replicate 15 0) 15))).map (fun f => f.2) =
      some ([0x02, 0x03, 0x04, 0x05, 0x06, 0x07, 0x08], 23) := by decide +kernel

/-- A signalling NaN is not canonicalised. -/
theorem test_update_float :
    file64 (exec (.updateFloat 0x7F800001) (active .xxh64 0#64)) =
      some (initLanes .xxh64 0#64, [0x01, 0x00, 0x80, 0x7F], 4) := by decide +kernel

theorem test_update_double :
    file64 (exec (.updateDouble 0xFFF0000000000000) (active .xxh64 0#64)) =
      some (initLanes .xxh64 0#64, [0x00, 0x00, 0x00, 0x00, 0x00, 0x00, 0xF0, 0xFF], 8) := by decide +kernel

/-! ## The encoders (V-ENC and the examples of R106 to R113) -/

theorem test_encode_bool_byte_char :
    replyOf (exec (.encodeBool 1) (fresh .xxh32)) = some (.doneWith (.bytes [0x01])) ∧
    replyOf (exec (.encodeByte 0x80) (fresh .xxh32)) = some (.doneWith (.bytes [0x80])) ∧
    replyOf (exec (.encodeChar 0x20AC) (fresh .xxh32)) = some (.doneWith (.bytes [0xAC, 0x20])) := by decide +kernel

theorem test_encode_short_int_long :
    replyOf (exec (.encodeShort 0xFFFE) (fresh .xxh32)) = some (.doneWith (.bytes [0xFE, 0xFF])) ∧
    replyOf (exec (.encodeInt 0x12345678) (fresh .xxh32)) = some (.doneWith (.bytes [0x78, 0x56, 0x34, 0x12])) ∧
    replyOf (exec (.encodeLong 0x8000000000000000) (fresh .xxh32)) =
      some (.doneWith (.bytes [0x00, 0x00, 0x00, 0x00, 0x00, 0x00, 0x00, 0x80])) := by decide +kernel

theorem test_encode_float_double :
    replyOf (exec (.encodeFloat 0x3F800000) (fresh .xxh32)) = some (.doneWith (.bytes [0x00, 0x00, 0x80, 0x3F])) ∧
    replyOf (exec (.encodeDouble 0x3FF0000000000000) (fresh .xxh32)) =
      some (.doneWith (.bytes [0x00, 0x00, 0x00, 0x00, 0x00, 0x00, 0xF0, 0x3F])) := by decide +kernel

/-! ## The datapath and the one-shot -/

/-- V-MIX: the lane round. -/
theorem test_round :
    laneRound .xxh32 0#32 1#32 = 0x8DF8C7AD#32 ∧ laneRound .xxh32 1#32 0#32 = 0xEF362000#32 ∧
    laneRound .xxh64 0#64 1#64 = 0x7F0E345BE3649CD2#64 ∧
    laneRound .xxh64 0xFFFFFFFFFFFFFFFF#64 0xFFFFFFFFFFFFFFFF#64 = 0xE2BA51F296AF98A7#64 := by decide +kernel

/-- V-MIX M1. -/
theorem test_mix_xxh32 :
    replyOf (exec (.mix .xxh32 0x24234428#32 0x85EBCA77#32 0#32 0x61C8864F#32 (seqBytes 16)) (fresh .xxh32)) =
      some (.doneWith (.lanes .xxh32
        { v1 := 0xF817BCCB#32, v2 := 0x0222719B#32, v3 := 0xD4B0C0A4#32, v4 := 0xDEBB7574#32 })) := by decide +kernel

/-- V-MIX M3. -/
theorem test_mix_xxh64 :
    replyOf (exec (.mix .xxh64 0x60EA27EEADC0B5D6#64 0xC2B2AE3D27D4EB4F#64 0#64 0x61C8864E7A143579#64 (seqBytes 32))
      (fresh .xxh64)) = some (.doneWith (.lanes .xxh64
        { v1 := 0xF4B53B57406B5E99#64, v2 := 0xC3D34B511FC32561#64, v3 := 0xCB26C007C8A1553F#64
          v4 := 0x9A44D001A7F91C07#64 })) := by decide +kernel

/-- V-FIN F5, F7 and F9. -/
theorem test_finalize_xxh32 :
    replyOf (exec (.finalize .xxh32 0#32 0#32 0#32 0#32 16 [] 0#32) (fresh .xxh32)) = ok .xxh32 0x4514B695#32 ∧
    replyOf (exec (.finalize .xxh32 0x24234428#32 0x85EBCA77#32 0#32 0x61C8864F#32 15 [] 0#32) (fresh .xxh32)) =
      ok .xxh32 0xDD62035C#32 ∧
    replyOf (exec (.finalize .xxh32 0x24234428#32 0x85EBCA77#32 0#32 0x61C8864F#32 0x100000015 (seqBytes 5) 0#32)
      (fresh .xxh32)) = ok .xxh32 0x78F2A878#32 := by decide +kernel

/-- V-FIN F10 and F12. -/
theorem test_finalize_xxh64 :
    replyOf (exec (.finalize .xxh64 1#64 2#64 3#64 4#64 31 (seqBytes 31) 0#64) (fresh .xxh64)) =
      ok .xxh64 0xC346D2B59B4D8EE1#64 ∧
    replyOf (exec (.finalize .xxh64 0#64 0#64 0#64 0#64 0xFFFFFFFFFFFFFFFF [] 0#64) (fresh .xxh64)) =
      ok .xxh64 0xE029CDC23F1EEFE3#64 := by decide +kernel

/-- V-KAT, V-LEN 15, 16, 31 and the sign of a tail byte (V-FIN), XXH32. -/
theorem test_oneshot_xxh32 :
    replyOf (exec (.oneshot .xxh32 0#32 [0x61, 0x62, 0x63]) (fresh .xxh32)) = ok .xxh32 0x32D153FF#32 ∧
    oneShotDigest .xxh32 0xFFFFFFFF#32 [0x61] = 0xCD42752D#32 ∧
    oneShotDigest .xxh32 1#32 (seqBytes 15) = 0xD49D17C6#32 ∧
    oneShotDigest .xxh32 0#32 (seqBytes 16) = 0xB72837F4#32 ∧
    oneShotDigest .xxh32 1#32 (seqBytes 31) = 0x46CA8ED5#32 ∧
    oneShotDigest .xxh32 0#32 (List.replicate 15 0xFF) = 0x20095B45#32 := by decide +kernel

/-- V-KAT, V-LEN 31, 63 and 64 and the sign of a tail byte (V-FIN), XXH64. -/
theorem test_oneshot_xxh64 :
    replyOf (exec (.oneshot .xxh64 0#64 []) (fresh .xxh64)) = ok .xxh64 0xEF46DB3751D8E999#64 ∧
    oneShotDigest .xxh64 0#64 [0x61, 0x62, 0x63] = 0x44BC2CF5AD770999#64 ∧
    oneShotDigest .xxh64 1#64 (seqBytes 31) = 0xF031031D65977DFC#64 ∧
    oneShotDigest .xxh64 0#64 (seqBytes 63) = 0xE26AA9E2A95F8E4F#64 ∧
    oneShotDigest .xxh64 1#64 (seqBytes 64) = 0x3CE5BDF7575926C0#64 ∧
    oneShotDigest .xxh64 0#64 (List.replicate 31 0xFF) = 0x5FBFF749E15D5844#64 := by decide +kernel

/-! ## Steps, power-on and errors -/

/-- V-ERR E1 to E6: each illegal word, at a Destroyed and at an Active instance. -/
theorem test_illegal_words :
    [0x00000000#32, 0x00000099#32, 0x00000811#32, 0x00000120#32, 0x00001020#32].all (fun w =>
      replyOf (step (presenting (fresh .xxh64) [wordAt0 w])) == some { status := .illegalCommand, result := none } &&
      replyOf (step (presenting (active .xxh64 1#64) [wordAt0 w])) ==
        some { status := .illegalCommand, result := none } &&
      hereOf (step (presenting (active .xxh64 1#64) [wordAt0 w])) == some (active .xxh64 1#64).here) = true := by
  decide +kernel

/-- R127. -/
theorem test_status_codes :
    Status.ok.code = 0 ∧ Status.invalidState.code = 1 ∧ Status.illegalCommand.code = 2 ∧
    Status.invalidArgument.code = 3 ∧ Status.outOfRange.code = 4 := by decide

/-- R26, R144. -/
theorem test_power_on :
    State.reset.here.hasher.life = .destroyed ∧ State.reset.pending = [] ∧ State.reset.responses = [] := by decide

/-- A table word placed at reset is what the next step runs: ONESHOT 0, {} (V-KAT). -/
theorem test_withFetchWord :
    replyOf (step (State.reset.withFetchWord 32 0x00000021)) = ok .xxh64 0xEF46DB3751D8E999#64 := by decide +kernel

/-- R139: a command to port 1 is performed there. -/
theorem test_step_addresses_the_port :
    hereOf (step (presenting pair [transactionOf 1 (.create .xxh32 5#32)])) =
      some { variant := .xxh32, hasher := startHasher .xxh32 5#32 } := by decide +kernel

/-! ## The assembler (R62) -/

/-- L3-1 line 1 with a comment; a `;` inside a string is no comment. -/
theorem test_assemble_bytes :
    assembleLine .xxh64 "UPDATE.BYTES \"xxhash\" ; six bytes".toList =
      some (some (.updateBytes [0x78, 0x78, 0x68, 0x61, 0x73, 0x68])) ∧
    assembleLine .xxh64 "UPDATE.BYTES \";\"".toList = some (some (.updateBytes [0x3B])) := by decide +kernel

theorem test_assemble_values :
    assembleLine .xxh32 "UPDATE.SHORT -32768".toList = some (some (.updateShort 0x8000)) ∧
    assembleLine .xxh32 "UPDATE.BOOL true".toList = some (some (.updateBool 1)) ∧
    assembleLine .xxh32 "ENCODE.FLOAT 0x3F800000".toList = some (some (.encodeFloat 0x3F800000)) ∧
    assembleLine .xxh32 "ENCODE.FLOAT 1".toList = none ∧
    assembleLine .xxh32 "UPDATE.BYTE 256".toList = none := by decide +kernel

/-- A FINALIZE line with bytes in braces (the characters 123 and 125). -/
theorem test_assemble_finalize :
    assembleLine .xxh32 ("FINALIZE 1, 2,3,0x4, 32, ".toList ++ [Char.ofNat 123] ++ "0A ff".toList ++ [Char.ofNat 125] ++
      ", 7".toList) = some (some (.finalize .xxh32 1#32 2#32 3#32 4#32 32 [0x0A, 0xFF] 7#32)) := by decide +kernel

theorem test_assemble_program :
    assemble .xxh32 ["CREATE 0".toList, "; a comment".toList, "DIGEST".toList, "DISPOSE".toList] =
      some [.create .xxh32 0#32, .digest, .dispose] := by decide +kernel

/-! ## Witnesses: for each statement with hypotheses, a state and operands that meet all of them -/

theorem witness_DecodeOfEncodeIsTheCommand :
    WellFormed .xxh32 (.finalize .xxh32 1#32 2#32 3#32 4#32 15 (seqBytes 15) 5#32) = true ∧
    WellFormed .xxh64 (.finalize .xxh64 1#64 2#64 3#64 4#64 31 (seqBytes 31) 5#64) = true ∧
    WellFormed .xxh64 (.mix .xxh64 1#64 2#64 3#64 4#64 (seqBytes 32)) = true ∧
    WellFormed .xxh32 (.updateBytes []) = true := by decide

theorem witness_EncodeOfDecodeIsTheTransaction :
    decode .xxh32 0x00000010 (true :: zeros 63 ++ letterA) = .ok (.updateBytes [0x61]) := test_decode_update_bytes.1

/-- Each clause of the length statement is met by the decoding shown for its command above. -/
theorem witness_OperandRecordLengthFollowsTheCommand :
    decode .xxh32 0x00000021 (false :: true :: zeros 30 ++ (true :: zeros 63) ++ letterA) =
      .ok (.oneshot .xxh32 2#32 [0x61]) := test_decode_oneshot

/-- Numerals of a value: decimal, and hexadecimal with letters of both cases. -/
theorem test_spells :
    SpellsNumeral ['2', '5', '6'] 256 ∧ SpellsNumeral ['0', 'x', '1', 'F'] 31 ∧ SpellsNumeral ['0', 'x', '1', 'f'] 31 := by
  refine ⟨.inr ⟨by simp, [2, 5, 6], ?_⟩, .inl ⟨_, rfl, by simp, [1, 15], ?_⟩, .inl ⟨_, rfl, by simp, [1, 15], ?_⟩⟩ <;>
    simp [IsDigit, digitCapitals, digitSmall, Nat.ofDigits]

/-- The text `0x1F, "a;" ; b`, and the text with the bytes in braces, are lines of ONESHOT; with a blank line they are a
program. -/
theorem witness_LinesAssembleToTheirCommands :
    WellFormed .xxh32 (.oneshot .xxh32 0x1F#32 [0x61, 0x3B]) = true ∧
    (Instr.oneshot .xxh32 0x1F#32 [0x61, 0x3B]).IsLine "ONESHOT 0x1F, \"a;\" ; b".toList ∧
    IsProgram [.oneshot .xxh32 0x1F#32 [0x61, 0x3B], .oneshot .xxh32 0x1F#32 [0x61, 0x3B]]
      ["ONESHOT 0x1F, \"a;\" ; b".toList, "  ; c".toList,
        "ONESHOT 0x1F, ".toList ++ Char.ofNat 123 :: "61 3b".toList ++ [Char.ofNat 125]] := by
  have h1 : (Instr.oneshot .xxh32 0x1F#32 [0x61, 0x3B]).IsLine "ONESHOT 0x1F, \"a;\" ; b".toList :=
    ⟨[['0', 'x', '1', 'F'], ['"', 'a', ';', '"']], _, [';', ' ', 'b'], 1, 1,
      .cons test_spells.2.1 (.cons (.inr ⟨['a', ';'], rfl, by simp, by decide⟩) .nil),
      .more _ 1 _ _ (.last _) (by simp), .inr ⟨[' ', 'b'], rfl⟩, by simp, by decide +kernel⟩
  have hb : SpellsPairs ['6', '1', ' ', '3', 'b'] [0x61, 0x3B] :=
    .more '6' '1' _ ⟨by simp, [6, 1], by simp [IsDigit, digitCapitals], by simp [Nat.ofDigits]⟩ 0 ['3', 'b'] _
      (.last _ _ _ ⟨by simp, [3, 11], by simp [IsDigit, digitCapitals, digitSmall], by simp [Nat.ofDigits]⟩) (by simp)
  have h2 : (Instr.oneshot .xxh32 0x1F#32 [0x61, 0x3B]).IsLine
      ("ONESHOT 0x1F, ".toList ++ Char.ofNat 123 :: "61 3b".toList ++ [Char.ofNat 125]) :=
    ⟨[['0', 'x', '1', 'F'], Char.ofNat 123 :: (['6', '1', ' ', '3', 'b'] ++ [Char.ofNat 125])], _, [], 1, 0,
      .cons test_spells.2.1 (.cons (.inl ⟨_, rfl, hb⟩) .nil),
      .more _ 1 _ _ (.last _) (by simp), .inl rfl, by simp, by decide +kernel⟩
  exact ⟨by decide, h1, .command _ _ _ _ h1 (.blank 2 [';', ' ', 'c'] _ _ (.inr ⟨_, rfl⟩) (.command _ _ _ _ h2 .done))⟩

/-- A negative numeral, at the least value of its type. -/
theorem test_spells_negative : SpellsSigned ['-', '1', '2', '8'] (0x80#8) :=
  .inr ⟨_, 128, rfl, ⟨by simp, [1, 2, 8], by simp [IsDigit, digitCapitals], by simp [Nat.ofDigits]⟩, by decide⟩

/-- For each width, the least number that does not fit it, as a decimal or a hexadecimal numeral. -/
theorem witness_NumeralsThatDoNotFitMakeNoCommand :
    SpellsNumeral ['2'] 2 ∧ SpellsNumeral ['2', '5', '6'] (2 ^ 8) ∧
    SpellsNumeral ('0' :: 'x' :: '1' :: List.replicate 4 '0') (2 ^ 16) ∧
    SpellsNumeral ('0' :: 'x' :: '1' :: List.replicate 8 '0') (2 ^ 32) ∧
    SpellsNumeral ('0' :: 'x' :: '1' :: List.replicate 16 '0') (2 ^ 64) ∧ SpellsIn 10 ['1'] 1 := by
  refine ⟨.inr ⟨by simp, [2], ?_⟩, test_spells.1, .inl ⟨_, rfl, by simp, 1 :: List.replicate 4 0, ?_⟩,
    .inl ⟨_, rfl, by simp, 1 :: List.replicate 8 0, ?_⟩, .inl ⟨_, rfl, by simp, 1 :: List.replicate 16 0, ?_⟩,
    by simp, [1], ?_⟩ <;> simp [IsDigit, digitCapitals, Nat.ofDigits, List.replicate]

/-- The transaction is for the second of two instances. -/
theorem witness_StepPerformsTheDecodedCommand :
    (presenting pair [transactionOf 1 (.create .xxh32 5#32)]).pending = transactionOf 1 (.create .xxh32 5#32) :: [] ∧
    (pair.before ++ pair.here :: pair.after)[(transactionOf 1 (.create .xxh32 5#32)).port]? =
      some (Block.powerOn .xxh32) ∧
    decode (Block.powerOn .xxh32).variant (transactionOf 1 (.create .xxh32 5#32)).word
      (transactionOf 1 (.create .xxh32 5#32)).record = .ok (.create .xxh32 5#32) := by decide +kernel

theorem witness_StepWaitsForACommand : pair.pending = [] := rfl

/-- One word for each reason a word is illegal, at a boundary of it, presented at an existing port. -/
theorem witness_IllegalWordIsAnsweredAndChangesNothing :
    (∀ w, (presenting pair [wordAt0 w]).pending = wordAt0 w :: [] ∧ (wordAt0 w).word = w ∧
      (wordAt0 w).port < (pair.before ++ pair.here :: pair.after).length) ∧
    (0x00001020#32).toNat / 4096 ≠ 0 ∧
    ((0x00000811#32).toNat % 256 = 0x11 ∧ 8 ≤ (0x00000811#32).toNat / 256 % 16) ∧
    (¬((0x00000120#32).toNat % 256 = 0x11 ∨ (0x00000120#32).toNat % 256 = 0x32) ∧
      (0x00000120#32).toNat / 256 % 16 ≠ 0) ∧
    (0x00000004#32).toNat % 256 ∉ [0x01, 0x02, 0x03, 0x10, 0x11, 0x20, 0x21, 0x30, 0x31, 0x32] := by
  exact ⟨fun _ => ⟨rfl, rfl, Nat.zero_lt_succ _⟩, by decide, by decide, by decide, by decide⟩

/-- Both right-hand sides are met: the first port that no instance has, and a record that is too short. -/
theorem witness_StepStopsOnlyOnWhatNoHostPresents :
    (∃ t rest, (presenting pair [transactionOf 2 .digest]).pending = t :: rest ∧
      (pair.before ++ pair.here :: pair.after).length ≤ t.port) ∧
    ∃ t rest b, (presenting pair [wordAt0 0x00000001]).pending = t :: rest ∧
      (pair.before ++ pair.here :: pair.after)[t.port]? = some b ∧
      decode b.variant t.word t.record = .error .malformedRecord :=
  ⟨⟨_, _, rfl, by decide⟩, ⟨_, _, _, rfl, rfl, by decide +kernel⟩⟩

theorem witness_CommandStopsOnlyOnOperandsThatDoNotFit :
    WellFormed pair.here.variant (.create .xxh64 1#64) = true ∧
    WellFormed pair.here.variant (.create .xxh32 1#32) = false := by decide

/-- A step that performs a command. -/
theorem witness_EveryCommandIsAnsweredOnce :
    ∃ s', step (presenting pair [transactionOf 0 .digest]) = .next s' := ⟨_, rfl⟩

/-- A command that fails for the lifecycle, and a word that fails as illegal. -/
theorem witness_FailedCommandsWriteNothing :
    (∃ s', step (presenting pair [transactionOf 1 .digest]) = .next s' ∧
      s'.responses = [{ port := 1, response := .failed .invalidState }]) ∧
    ∃ s', step (presenting pair [wordAt0 0x00000099]) = .next s' ∧
      s'.responses = [{ port := 0, response := .failed .illegalCommand }] := ⟨⟨_, rfl, rfl⟩, ⟨_, rfl, rfl⟩⟩

/-- Both lifecycle states, with a well-formed command of each row of R129. -/
theorem witness_LifecycleDecidesWhatIsPerformed :
    (active .xxh64 1#64).here.hasher.life = .active ∧ (fresh .xxh64).here.hasher.life = .destroyed ∧
    [(.create .xxh64 1#64 : Instr), .reset .xxh64 1#64, .digest, .updateBytes [], .updateInt 7, .dispose,
      .oneshot .xxh64 1#64 [], .mix .xxh64 1#64 2#64 3#64 4#64 (seqBytes 32),
      .finalize .xxh64 1#64 2#64 3#64 4#64 0 [] 1#64, .encodeInt 7].all (WellFormed .xxh64) = true := by decide

/-- Commands performed in order at the second of two instances. -/
theorem witness_CommandsRunInTheOrderPresented :
    ∃ t, execAll [.create .xxh64 1#64, .updateInt 7, .digest, .dispose] { fresh .xxh64 with before := [Block.powerOn .xxh32] } =
      .next t := ⟨_, rfl⟩

theorem witness_MixRoundsEachLaneWithItsWord :
    (active .xxh32 1#32).here = { variant := .xxh32, hasher := startHasher .xxh32 1#32 } ∧
    (seqBytes 16).length = Variant.xxh32.blockBytes ∧
    (fresh .xxh64).here = { variant := .xxh64, hasher := (Block.powerOn .xxh64).hasher } ∧
    (seqBytes 32).length = Variant.xxh64.blockBytes := ⟨rfl, rfl, rfl, rfl⟩

/-- For each lane, two accumulator sets and two blocks that agree in that lane and its word only. -/
theorem witness_LanesAreMixedIndependently :
    ((⟨1, 2, 3, 4⟩ : Lanes 32).v1 = (⟨1, 5, 5, 5⟩ : Lanes 32).v1 ∧
      (seqBytes 16).take 4 = (seqBytes 4 ++ List.replicate 12 9).take 4) ∧
    ((⟨1, 2, 3, 4⟩ : Lanes 32).v2 = (⟨5, 2, 5, 5⟩ : Lanes 32).v2 ∧
      ((seqBytes 16).drop 4).take 4 = ((List.replicate 4 9 ++ (seqBytes 16).drop 4).drop 4).take 4) ∧
    ((⟨1, 2, 3, 4⟩ : Lanes 32).v3 = (⟨5, 5, 3, 5⟩ : Lanes 32).v3 ∧
      ((seqBytes 16).drop 8).take 4 = ((List.replicate 8 9 ++ (seqBytes 16).drop 8).drop 8).take 4) ∧
    ((⟨1, 2, 3, 4⟩ : Lanes 32).v4 = (⟨5, 5, 5, 4⟩ : Lanes 32).v4 ∧
      ((seqBytes 16).drop 12).take 4 = ((List.replicate 12 9 ++ (seqBytes 16).drop 12).drop 12).take 4) := by
  decide +kernel

/-- The longest tail of both variants, and the empty one. -/
theorem witness_FinalizeAnswersItsDigest :
    (fresh .xxh32).here = { variant := .xxh32, hasher := (Block.powerOn .xxh32).hasher } ∧
    (seqBytes 15).length ≤ Variant.xxh32.blockBytes - 1 ∧
    (active .xxh64 1#64).here = { variant := .xxh64, hasher := startHasher .xxh64 1#64 } ∧
    (seqBytes 31).length ≤ Variant.xxh64.blockBytes - 1 ∧ ([] : List Byte).length ≤ Variant.xxh64.blockBytes - 1 :=
  ⟨rfl, by decide, rfl, by decide, by decide⟩

theorem witness_FinalizeIgnoresLanesBelowOneBlock :
    (15#64).toNat < Variant.xxh32.blockBytes ∧ (31#64).toNat < Variant.xxh64.blockBytes := by decide

/-- V-FIN F8 and F9, and the least total that is folded with the lanes. -/
theorem witness_Xxh32FoldsTheLowTotalOnly :
    (16 ≤ (0x15#64).toNat ∧ 16 ≤ (0x100000015#64).toNat ∧
      (0x15#64).toNat % 2 ^ 32 = (0x100000015#64).toNat % 2 ^ 32) ∧
    16 ≤ (0x10#64).toNat ∧ 16 ≤ (0x100000010#64).toNat ∧
      (0x10#64).toNat % 2 ^ 32 = (0x100000010#64).toNat % 2 ^ 32 := by decide

theorem witness_CreateStartsAHasher :
    ((fresh .xxh32).here = { variant := .xxh32, hasher := (Block.powerOn .xxh32).hasher } ∧
      (Block.powerOn .xxh32).hasher.life = .destroyed) ∧
    (active .xxh64 1#64).here = { variant := .xxh64, hasher := startHasher .xxh64 1#64 } ∧
      (startHasher .xxh64 1#64).life = .active := ⟨⟨rfl, rfl⟩, rfl, rfl⟩

theorem witness_ResetRestartsTheHasher :
    ((fresh .xxh32).here = { variant := .xxh32, hasher := (Block.powerOn .xxh32).hasher } ∧
      (Block.powerOn .xxh32).hasher.life = .destroyed) ∧
    (active .xxh64 1#64).here = { variant := .xxh64, hasher := startHasher .xxh64 1#64 } ∧
      (startHasher .xxh64 1#64).life = .active := witness_CreateStartsAHasher

theorem witness_DisposeWritesLifeOnly :
    ((fresh .xxh32).here = { variant := .xxh32, hasher := (Block.powerOn .xxh32).hasher } ∧
      (Block.powerOn .xxh32).hasher.life = .destroyed) ∧
    (active .xxh64 1#64).here = { variant := .xxh64, hasher := startHasher .xxh64 1#64 } ∧
      (startHasher .xxh64 1#64).life = .active := witness_CreateStartsAHasher

/-- The empty operand, and one of a block, at a Destroyed and at an Active instance. -/
theorem witness_UpdateBytesAbsorbsTheStream :
    ((fresh .xxh32).here = { variant := .xxh32, hasher := (Block.powerOn .xxh32).hasher } ∧
      (Block.powerOn .xxh32).hasher.life = .destroyed ∧ ([] : List Byte).length < 2 ^ 64) ∧
    (active .xxh64 1#64).here = { variant := .xxh64, hasher := startHasher .xxh64 1#64 } ∧
      (startHasher .xxh64 1#64).life = .active ∧ (seqBytes 32).length < 2 ^ 64 :=
  ⟨⟨rfl, rfl, by decide⟩, rfl, rfl, by decide⟩

theorem witness_UpdateOfAPrimitiveAbsorbsItsBytes :
    ((fresh .xxh32).here = { variant := .xxh32, hasher := (Block.powerOn .xxh32).hasher } ∧
      (Block.powerOn .xxh32).hasher.life = .destroyed) ∧
    (active .xxh64 1#64).here = { variant := .xxh64, hasher := startHasher .xxh64 1#64 } ∧
      (startHasher .xxh64 1#64).life = .active := witness_CreateStartsAHasher

theorem witness_UpdateOfAPrimitiveIsUpdateOfItsBytes :
    (Instr.updateLong 7).command.updates = true ∧ WellFormed (fresh .xxh32).here.variant (.updateLong 7) = true := by
  decide

/-- The longest operand that leaves the residual below a block, the shortest that completes one block, and the longest
that completes no second one. -/
theorem witness_ShortInputStaysInTheResidual :
    (holding .xxh32 7#32 [0, 1, 2] 3).here =
      { variant := .xxh32, hasher := { startHasher .xxh32 7#32 with res := [0, 1, 2], total := 3 } } ∧
    ([0, 1, 2] : List Byte).length < Variant.xxh32.blockBytes ∧
    (seqBytes 12).length < 2 ^ 64 ∧ 3 + (seqBytes 12).length < Variant.xxh32.blockBytes ∧
    (seqBytes 13).length < 2 ^ 64 ∧ Variant.xxh32.blockBytes ≤ 3 + (seqBytes 13).length ∧
    (seqBytes 28).length < 2 ^ 64 ∧ 3 + (seqBytes 28).length < 2 * Variant.xxh32.blockBytes :=
  ⟨rfl, by decide, by decide, by decide, by decide, by decide, by decide, by decide⟩

theorem witness_DigestReadsWithoutWriting :
    ((fresh .xxh32).here = { variant := .xxh32, hasher := (Block.powerOn .xxh32).hasher } ∧
      (Block.powerOn .xxh32).hasher.life = .destroyed) ∧
    (active .xxh64 1#64).here = { variant := .xxh64, hasher := startHasher .xxh64 1#64 } ∧
      (startHasher .xxh64 1#64).life = .active := witness_CreateStartsAHasher

theorem witness_DigestIsIdempotent :
    ((fresh .xxh32).here = { variant := .xxh32, hasher := (Block.powerOn .xxh32).hasher } ∧
      (Block.powerOn .xxh32).hasher.life = .destroyed) ∧
    (active .xxh64 1#64).here = { variant := .xxh64, hasher := startHasher .xxh64 1#64 } ∧
      (startHasher .xxh64 1#64).life = .active := witness_CreateStartsAHasher

/-- The greatest total below a block. -/
theorem witness_DigestHidesLanesBelowOneBlock :
    (holding .xxh64 1#64 (seqBytes 31) 31).here =
      { variant := .xxh64, hasher := { startHasher .xxh64 1#64 with res := seqBytes 31, total := 31 } } ∧
    (startHasher .xxh64 1#64).life = .active ∧ (31#64).toNat < Variant.xxh64.blockBytes := ⟨rfl, rfl, by decide⟩

/-- Byte and primitive updates, mixed, and one empty. -/
theorem witness_StreamedStateIsThatOfItsBytes :
    (fresh .xxh32).here = { variant := .xxh32, hasher := (Block.powerOn .xxh32).hasher } ∧
    (Block.powerOn .xxh32).hasher.life = .destroyed ∧
    ∀ i ∈ [Instr.updateBytes (seqBytes 15), .updateLong 7, .updateBytes []],
      i.command.updates = true ∧ WellFormed .xxh32 i = true := ⟨rfl, rfl, by decide⟩

/-- The split of V-STREAM 2, with an empty chunk. -/
theorem witness_SplitInvariance :
    (fresh .xxh32).here = { variant := .xxh32, hasher := (Block.powerOn .xxh32).hasher } ∧
    (Block.powerOn .xxh32).hasher.life = .destroyed ∧
    [seqBytes 3, [], (seqBytes 16).drop 3, (seqBytes 40).drop 16].flatten.length < 2 ^ 64 := ⟨rfl, rfl, by decide⟩

/-- A used hasher, and an instance at power-on. -/
theorem witness_ResetLeavesNoResidue :
    (holding .xxh32 7#32 [0, 1, 2] 3).here =
      { variant := .xxh32, hasher := { startHasher .xxh32 7#32 with res := [0, 1, 2], total := 3 } } ∧
    (startHasher .xxh32 7#32).life = .active ∧
    (fresh .xxh32).here = { variant := .xxh32, hasher := (Block.powerOn .xxh32).hasher } ∧
    (Block.powerOn .xxh32).hasher.life = .destroyed ∧
    ∃ s', execAll [.reset .xxh32 1#32, .updateInt 5, .digest] (holding .xxh32 7#32 [0, 1, 2] 3) = .next s' :=
  ⟨rfl, rfl, rfl, rfl, _, rfl⟩

theorem witness_DigestMayStandAnywhere :
    ∃ t, execAll ([.create .xxh32 7#32, .updateBytes [1]] ++ [.updateInt 5, .digest]) (fresh .xxh32) = .next t :=
  ⟨_, rfl⟩

/-- The empty operand, and one of a block. -/
theorem witness_OneShotDigestsTheWholeOperand :
    (fresh .xxh32).here = { variant := .xxh32, hasher := (Block.powerOn .xxh32).hasher } ∧
    ([] : List Byte).length < 2 ^ 64 ∧ (seqBytes 16).length < 2 ^ 64 := ⟨rfl, by decide, by decide⟩

theorem witness_OneShotEqualsStreaming :
    ((fresh .xxh32).here = { variant := .xxh32, hasher := (Block.powerOn .xxh32).hasher } ∧
      (Block.powerOn .xxh32).hasher.life = .destroyed ∧ (seqBytes 16).length < 2 ^ 64) ∧
    (active .xxh64 1#64).here = { variant := .xxh64, hasher := startHasher .xxh64 1#64 } ∧
      (startHasher .xxh64 1#64).life = .active ∧ (seqBytes 40).length < 2 ^ 64 :=
  ⟨⟨rfl, rfl, by decide⟩, rfl, rfl, by decide⟩

/-- A word that ends where the sequence does. -/
theorem witness_LittleEndianWordsAndBytes : 28 + 4 ≤ (seqBytes 32).length := by decide

theorem witness_CommandsWriteOnlyTheirElements :
    (active .xxh64 1#64).here = { variant := .xxh64, hasher := startHasher .xxh64 1#64 } ∧
    (∃ s', exec .dispose (active .xxh64 1#64) = .next s') ∧ (∃ s', exec (.updateInt 7) (active .xxh64 1#64) = .next s') ∧
    ∃ s', exec (.oneshot .xxh64 1#64 [1]) (active .xxh64 1#64) = .next s' := ⟨rfl, ⟨_, rfl⟩, ⟨_, rfl⟩, _, rfl⟩

/-- A Destroyed and an Active instance. -/
theorem witness_StatelessCommandsIgnoreTheState :
    (Instr.oneshot .xxh64 1#64 [1]).command.stateless = true ∧
    (fresh .xxh64).here.variant = (active .xxh64 1#64).here.variant ∧
    WellFormed (fresh .xxh64).here.variant (.oneshot .xxh64 1#64 [1]) = true := by decide

/-- An Active instance that has absorbed a byte, about to absorb another. -/
theorem witness_StepKeepsStreams :
    (presenting (holding .xxh64 1#64 [5] 1) [transactionOf 0 (.updateByte 6)]).FollowStreams ∧
    ∃ s', step (presenting (holding .xxh64 1#64 [5] 1) [transactionOf 0 (.updateByte 6)]) = .next s' := by
  refine ⟨?_, _, rfl⟩
  intro b hb _
  rw [List.mem_singleton.mp hb]
  exact ⟨1#64, [5], rfl⟩

/-- An Active instance whose `TOTAL` is about to wrap. -/
theorem witness_StepKeepsResidualLength :
    (presenting (holding .xxh64 1#64 (seqBytes 31) 0xFFFFFFFFFFFFFFFF) [transactionOf 0 (.updateByte 6)]).ResidualsFit ∧
    ∃ s', step (presenting (holding .xxh64 1#64 (seqBytes 31) 0xFFFFFFFFFFFFFFFF) [transactionOf 0 (.updateByte 6)]) =
      .next s' := by
  refine ⟨?_, _, rfl⟩
  intro b hb _
  rw [List.mem_singleton.mp hb]
  decide

theorem witness_StepKeepsVariants : ∃ s', step (presenting pair [transactionOf 1 .dispose]) = .next s' := ⟨_, rfl⟩

theorem witness_CommandTouchesOnlyItsInstance :
    ∃ s', step (presenting pair [transactionOf 1 (.create .xxh32 5#32)]) = .next s' := ⟨_, rfl⟩

theorem witness_CommandsToDifferentInstancesCommute :
    ∃ s1 s2, step (presenting pair [transactionOf 0 .digest, transactionOf 1 (.create .xxh32 5#32)]) = .next s1 ∧
      step s1 = .next s2 ∧ (transactionOf 0 .digest).port ≠ (transactionOf 1 (.create .xxh32 5#32)).port :=
  ⟨_, _, rfl, rfl, by decide⟩

end Sys2Proof.Tests
end

section
/-! PROOFS. The little-endian word of a sequence and the bytes of a value (R10). -/

namespace Sys2Proof.Machine

open Sys2Proof

/-- The places of `n` bytes, as the model's loops count them (`256^n`) and as R10 writes them (`2^(8n)`). -/
theorem pow_256_eq_two_pow (n : Nat) : 256 ^ n = 2 ^ (8 * n) := (pow_mul 2 8 n).symm

/-- The model's word, read through the slice, is R10's sum over positions of the whole sequence. -/
theorem leWord_eq_wordAt {s : List Byte} {i n : Nat} (h : i + n ≤ s.length) : leWord s i n = wordAt s i n := by
  have hlen : ((s.drop i).take n).length = n := by
    rw [List.length_take, List.length_drop]
    omega
  have hget : ∀ k < n, ((s.drop i).take n).getD k 0 = s.getD (i + k) 0 := fun k hk => by
    simp [List.getD_eq_getElem?_getD, hk]
  rw [leWord, leNat_eq_sum, hlen, wordAt]
  congr 1
  refine List.map_congr_left fun k hk => ?_
  rw [hget k (List.mem_range.mp hk), byteAt]

theorem leWord_lt (s : List Byte) (i n : Nat) : leWord s i n < 2 ^ (8 * n) :=
  calc leWord s i n < 256 ^ ((s.drop i).take n).length := leNat_lt _
    _ ≤ 256 ^ n := Nat.pow_le_pow_right (by decide) (List.length_take_le ..)
    _ = 2 ^ (8 * n) := pow_256_eq_two_pow n

/-- Dividing by the byte's place is reading the bits from that place on. -/
theorem leBytes_toNat_eq_bytesOf {W : Nat} (n : Nat) (x : BitVec W) : leBytes n x.toNat = bytesOf n x := by
  rw [leBytes_eq_map, bytesOf]
  refine List.map_congr_left fun k _ => BitVec.eq_of_toNat_eq ?_
  rw [BitVec.toNat_ofNat, BitVec.extractLsb'_toNat, Nat.shiftRight_eq_div_pow, pow_256_eq_two_pow]

/-- `LE` of `LEbytes` keeps the low `8n` bits. -/
theorem leWord_leBytes (n x : Nat) : leWord (leBytes n x) 0 n = x % 2 ^ (8 * n) := by
  have hall : (leBytes n x).take n = leBytes n x := List.take_of_length_le (leBytes_length n x).le
  rw [leWord, List.drop_zero, hall, leNat_leBytes, pow_256_eq_two_pow]

/-- Settles O43: the word through the sum over a sequence, the bytes through their places, and the round trip through
the low `8n` bits, which are all of a value of `8n` bits. -/
theorem littleEndianWordsAndBytes : Obligations.LittleEndianWordsAndBytes := by
  unfold Obligations.LittleEndianWordsAndBytes
  refine ⟨fun s i n h => ⟨leWord_eq_wordAt h, leWord_lt s i n⟩, fun n x => leBytes_toNat_eq_bytesOf n x, fun n x => ?_⟩
  rw [leWord_leBytes, Nat.mod_eq_of_lt x.isLt]

end Sys2Proof.Machine
end

section
/-! PROOFS. A well-formed command's transaction decodes to the command (R55 to R59, log 3). -/

namespace Sys2Proof

/-- The word of every command decodes to it. -/
theorem decodeWord_encodeWord (c : Command) : decodeWord (encodeWord c) = some c := by
  cases c with
  | update t => cases t <;> decide
  | encode t => cases t <;> decide
  | create | reset | dispose | updateBytes | digest | oneshot | mix | finalize => decide

/-- A tail below one block has a length its field can say (R57). -/
theorem lt_two_pow_tlBits_of_le_resCap {v : Variant} {n : Nat} (h : n ≤ v.resCap) : n < 2 ^ v.tlBits := by
  have hcap : v.resCap < 2 ^ v.tlBits := by cases v <;> decide
  exact lt_of_le_of_lt h hcap

/-- The record of a well-formed command reads back as the command, with nothing left over. -/
theorem readOperands_operandBits {v : Variant} {i : Instr} (hw : WellFormed v i = true) :
    readOperands v i.command (operandBits i) = some (i, []) := by
  cases i with
  | create w seed | reset w seed =>
    obtain rfl := of_decide_eq_true hw
    exact readOne_fieldBits _ seed
  | dispose | digest => rfl
  | updateBytes data =>
    have hd := readSized_sizedBits data [] (of_decide_eq_true hw)
    rw [List.append_nil] at hd
    simp only [Instr.command, operandBits, readOperands, hd, Option.map_some]
  | oneshot w seed data =>
    obtain ⟨hv, hf⟩ := Bool.and_eq_true_iff.mp hw
    obtain rfl := of_decide_eq_true hv
    have hd := readSized_sizedBits data [] (of_decide_eq_true hf)
    rw [List.append_nil] at hd
    simp only [Instr.command, operandBits, readOperands, readField_fieldBits, hd, Option.map_some]
  | mix w a1 a2 a3 a4 blk =>
    obtain ⟨hv, hf⟩ := Bool.and_eq_true_iff.mp hw
    obtain rfl := of_decide_eq_true hv
    have hb := readBytes_bytesBits blk []
    rw [List.append_nil, of_decide_eq_true hf] at hb
    simp only [Instr.command, operandBits, readOperands, readLanes_lanesBits, hb, Option.map_some]
  | finalize w a1 a2 a3 a4 tot tail seed =>
    obtain ⟨hv, hf⟩ := Bool.and_eq_true_iff.mp hw
    obtain rfl := of_decide_eq_true hv
    have ht := readSized_sizedBits tail (fieldBits seed) (lt_two_pow_tlBits_of_le_resCap (of_decide_eq_true hf))
    have hs := readField_fieldBits seed []
    rw [List.append_nil] at hs
    simp only [Instr.command, operandBits, readOperands, readLanes_lanesBits, readField_fieldBits, ht, hs,
      Option.map_some]
  | updateBool val | updateByte val | updateChar val | updateShort val | updateInt val | updateLong val
  | updateFloat val | updateDouble val | encodeBool val | encodeByte val | encodeChar val | encodeShort val
  | encodeInt val | encodeLong val | encodeFloat val | encodeDouble val => exact readOne_fieldBits _ val

theorem decode_encode {v : Variant} {i : Instr} (hw : WellFormed v i = true) :
    decode v (encode i).1 (encode i).2 = .ok i := by
  simp only [decode, encode, decodeWord_encodeWord, readOperands_operandBits hw]

end Sys2Proof
end

section
/-! PROOFS. Commands to one instance take effect in the order presented (R42): a command looks at
the addressed instance only, so the transactions behind it do not change what it does. -/

namespace Sys2Proof.Machine

open Sys2Proof

/-! ## What a command depends on -/

theorem exists_hasher_of_variant {v : Variant} {b : Block} (h : v = b.variant) :
    ∃ g : Hasher v.width, b = { variant := v, hasher := g } := by
  obtain rfl := h
  exact ⟨b.hasher, rfl⟩

/-- The lifecycle check at the instance `c` lets one and the same answer through in every state that addresses it. -/
theorem whenActive_answers (c b : Block) (r : Response) :
    ∃ b' r', ∀ s : State, s.here = c → s.whenActive (s.answered b r) = s.answered b' r' := by
  cases hl : c.hasher.life with
  | active => exact ⟨b, r, fun s hs => whenActive_of_active (hs ▸ hl)⟩
  | destroyed =>
    refine ⟨c, .failed .invalidState, fun s hs => ?_⟩
    rw [whenActive_of_destroyed (hs ▸ hl), raise_eq_answered, hs]

theorem update_answers (c : Block) (data : List Byte) :
    ∃ b r, ∀ s : State, s.here = c → s.update data = s.answered b r := by
  obtain ⟨b, r, h⟩ := whenActive_answers c (c.absorb data) .done
  refine ⟨b, r, fun s hs => ?_⟩
  rw [← h s hs, State.update, hs, complete_eq_answered]
  rfl

/-- A stateless command with operands that fit the addressed instance answers its result and writes nothing. -/
theorem performAs_complete_here {v : Variant} {fits : Bool} {c : Block} {s : State}
    (hw : (decide (v = c.variant) && fits) = true) (hs : s.here = c) (x : Result) :
    (s.performAs v fits fun _ => s.complete s.here (some x)) = .next (s.answered c (.doneWith x)) := by
  obtain ⟨hv, rfl⟩ := Bool.and_eq_true_iff.mp hw
  obtain ⟨g, hg⟩ := exists_hasher_of_variant (of_decide_eq_true hv)
  rw [performAs_of_here (hs.trans hg), complete_eq_answered, hs]
  rfl

/-- A well-formed command completes, and the instance it leaves and the response it gives depend on
the addressed instance alone: not on the other instances, the pending transactions or the replies given. -/
theorem exec_answers {i : Instr} {c : Block} (hw : WellFormed c.variant i = true) :
    ∃ b r, ∀ s : State, s.here = c → exec i s = .next (s.answered b r) := by
  cases i with
  | create v seed =>
    obtain ⟨g, rfl⟩ := exists_hasher_of_variant (of_decide_eq_true hw)
    cases hl : g.life with
    | active =>
      refine ⟨{ variant := v, hasher := g }, .failed .invalidState, fun s hs => ?_⟩
      rw [exec, execCreate, performAs_of_here hs, hl, ← hs]
      rfl
    | destroyed =>
      refine ⟨{ variant := v, hasher := startHasher v seed }, .done, fun s hs => ?_⟩
      rw [exec, execCreate, performAs_of_here hs, hl]
      rfl
  | reset v seed =>
    obtain ⟨g, hg⟩ := exists_hasher_of_variant (of_decide_eq_true hw)
    obtain ⟨b, r, h⟩ := whenActive_answers c { variant := v, hasher := startHasher v seed } .done
    exact ⟨b, r, fun s hs => h s hs ▸ performAs_of_here (hs.trans hg) _⟩
  | dispose => exact ⟨c.disposed, .done, fun s hs => by rw [← hs]; rfl⟩
  | updateBytes data =>
    obtain ⟨b, r, h⟩ := update_answers c data
    exact ⟨b, r, fun s hs => h s hs ▸ if_pos hw⟩
  | updateBool val | updateByte val | updateChar val | updateShort val | updateInt val | updateLong val
  | updateFloat val | updateDouble val =>
    obtain ⟨b, r, h⟩ := update_answers c _
    exact ⟨b, r, fun s hs => congrArg _ (h s hs)⟩
  | digest =>
    obtain ⟨b, r, h⟩ := whenActive_answers c c (.doneWith c.digest)
    refine ⟨b, r, fun s hs => ?_⟩
    rw [← h s hs, ← hs]
    rfl
  | oneshot | mix | finalize => exact ⟨c, .doneWith _, fun s hs => performAs_complete_here hw hs _⟩
  | encodeBool val | encodeByte val | encodeChar val | encodeShort val | encodeInt val | encodeLong val
  | encodeFloat val | encodeDouble val => exact ⟨c, .doneWith (.bytes _), fun s hs => by rw [← hs]; rfl⟩

/-- Only a command whose operands fit the addressed instance goes on. -/
theorem wellFormed_of_exec_next {i : Instr} {s t : State} (h : exec i s = .next t) :
    WellFormed s.here.variant i = true := by
  cases i with
  | create v seed | reset v seed =>
    obtain ⟨-, g, hs, -⟩ := performAs_next h
    simp [WellFormed, hs]
  | updateBytes data => exact (performWhen_next h).1
  | oneshot v | mix v | finalize v =>
    obtain ⟨hf, g, hs, -⟩ := performAs_next h
    simp [WellFormed, hs, hf]
  | dispose | digest | updateBool | updateByte | updateChar | updateShort | updateInt | updateLong | updateFloat
  | updateDouble | encodeBool | encodeByte | encodeChar | encodeShort | encodeInt | encodeLong | encodeFloat
  | encodeDouble => rfl

/-! ## The step on a presented command -/

/-- A transaction at the addressed instance's port takes nothing but itself from the state. -/
theorem present_at_port {s : State} {x : Transaction} {rest : List Transaction} (hx : x.port = s.before.length) :
    s.present x rest = some { s with pending := rest } := by
  simp [State.present, State.select, State.instances, hx]

/-- A program's first command is decoded and performed at the addressed instance, with the rest still to come. -/
theorem step_withProgram_cons {s : State} {i : Instr} (is : List Instr) (hw : WellFormed s.here.variant i = true) :
    step (s.withProgram s.before.length (i :: is)) = exec i (s.withProgram s.before.length is) := by
  have hpresent : (s.withProgram s.before.length (i :: is)).present (transactionOf s.before.length i)
      (is.map (transactionOf s.before.length) ++ s.pending) = some (s.withProgram s.before.length is) :=
    present_at_port rfl
  have hdecode : (s.withProgram s.before.length is).decodeHere (transactionOf s.before.length i) = .ok i :=
    decode_encode hw
  have hpending : (s.withProgram s.before.length (i :: is)).pending =
      transactionOf s.before.length i :: (is.map (transactionOf s.before.length) ++ s.pending) := rfl
  simp only [step, hpending, hpresent, hdecode]

/-- The transactions behind a command stay pending and do not change what it does. -/
theorem exec_withProgram {i : Instr} {s t : State} (p : Nat) (is : List Instr) (h : exec i s = .next t) :
    exec i (s.withProgram p is) = .next (t.withProgram p is) ∧ t.before = s.before := by
  obtain ⟨b, r, hr⟩ := exec_answers (wellFormed_of_exec_next h)
  obtain rfl : s.answered b r = t := Host.Outcome.next.inj ((hr s rfl).symm.trans h)
  exact ⟨hr (s.withProgram p is) rfl, rfl⟩

theorem execAll_cons_next {i : Instr} {is : List Instr} {s t : State} (h : execAll (i :: is) s = .next t) :
    ∃ u, exec i s = .next u ∧ execAll is u = .next t := by
  rw [execAll] at h
  split at h
  · rename_i u hu
    exact ⟨u, hu, h⟩
  · cases h
  · cases h

/-- Settles O15, by induction on the commands: the step on the first transaction is the first command, which leaves the
addressed port and the transactions behind it as they were. -/
theorem commandsRunInTheOrderPresented : Obligations.CommandsRunInTheOrderPresented := by
  unfold Obligations.CommandsRunInTheOrderPresented
  intro s t is h
  induction is generalizing s with
  | nil =>
    cases h
    exact run_zero core _
  | cons i is ih =>
    obtain ⟨u, hu, hrest⟩ := execAll_cons_next h
    obtain ⟨hexec, hport⟩ := exec_withProgram s.before.length is hu
    have hstep : core.step (s.withProgram s.before.length (i :: is)) = .next (u.withProgram u.before.length is) := by
      rw [hport]
      exact (step_withProgram_cons is (wellFormed_of_exec_next hu)).trans hexec
    exact (run_succ_of_step hstep).trans (ih u hrest)

end Sys2Proof.Machine
end

section
/-! PROOFS. The words that `decode` maps to ILLEGAL (R59, R60). -/

namespace Sys2Proof

/-! ## The fields of a word as numbers (R52) -/

theorem opField_toNat (w : CmdWord) : (opField w).toNat = w.toNat % 256 := by
  simp [opField, BitVec.extractLsb'_toNat]

theorem ptField_toNat (w : CmdWord) : (ptField w).toNat = w.toNat / 256 % 16 := by
  simp [ptField, BitVec.extractLsb'_toNat, Nat.shiftRight_eq_div_pow]

/-- The 20 bits from bit 12 up are all there is of a word above `PT`. -/
theorem rsvField_toNat (w : CmdWord) : (rsvField w).toNat = w.toNat / 4096 := by
  have hw : w.toNat / 4096 < 2 ^ 20 := by omega
  rw [rsvField, BitVec.extractLsb'_toNat, Nat.shiftRight_eq_div_pow]
  exact Nat.mod_eq_of_lt hw

/-- An `OP` is a given one exactly where the low byte of the word is. -/
theorem opField_eq_iff {w : CmdWord} {op : BitVec 8} : opField w = op ↔ w.toNat % 256 = op.toNat := by
  rw [← BitVec.toNat_inj, opField_toNat]

/-! ## The reserved codes -/

theorem primOfCode_of_reserved {pt : BitVec 4} (h : 8 ≤ pt.toNat) : primOfCode pt = none := by
  rw [primOfCode]
  split
  case h_9 => rfl
  all_goals omega

theorem untypedOp_of_unassigned {op : BitVec 8}
    (h : op.toNat ∉ [0x01, 0x02, 0x03, 0x10, 0x20, 0x21, 0x30, 0x31]) : untypedOp op = none := by
  rw [untypedOp]
  split
  case h_9 => rfl
  all_goals simp_all

/-! ## The ILLEGAL cases of `decode` -/

theorem decodeWord_of_rsv {w : CmdWord} (h : w.toNat / 4096 ≠ 0) : decodeWord w = none := by
  have hrsv : rsvField w ≠ 0 := fun h0 => h (by rw [← rsvField_toNat, h0]; rfl)
  rw [decodeWord, if_pos hrsv]

theorem decodeWord_of_reserved_type {w : CmdWord} (hop : w.toNat % 256 = 0x11 ∨ w.toNat % 256 = 0x32)
    (hpt : 8 ≤ w.toNat / 256 % 16) : decodeWord w = none := by
  have hprim : primOfCode (ptField w) = none := primOfCode_of_reserved (ptField_toNat w ▸ hpt)
  rw [decodeWord, hprim]
  rcases hop with h | h <;> simp [opField_eq_iff, h]

/-- With any `OP` but the two typed ones, a word without `RSV` is a command only with `PT` 0 and an untyped `OP`. -/
theorem decodeWord_of_untyped {w : CmdWord} (hop : ¬ (w.toNat % 256 = 0x11 ∨ w.toNat % 256 = 0x32))
    (h : w.toNat / 256 % 16 ≠ 0 ∨ untypedOp (opField w) = none) : decodeWord w = none := by
  obtain ⟨hupdate, hencode⟩ := not_or.mp hop
  rw [decodeWord, if_neg (opField_eq_iff.not.mpr hupdate), if_neg (opField_eq_iff.not.mpr hencode)]
  rcases h with hpt | hnone
  · have hne : ptField w ≠ 0 := fun h0 => hpt (by rw [← ptField_toNat, h0]; rfl)
    rw [if_pos hne, ite_self]
  · rw [hnone, ite_self, ite_self]

theorem decodeWord_of_unassigned {w : CmdWord}
    (h : w.toNat % 256 ∉ [0x01, 0x02, 0x03, 0x10, 0x11, 0x20, 0x21, 0x30, 0x31, 0x32]) : decodeWord w = none := by
  have hop : ¬ (w.toNat % 256 = 0x11 ∨ w.toNat % 256 = 0x32) := by
    rintro (h0 | h0) <;> simp [h0] at h
  refine decodeWord_of_untyped hop (.inr (untypedOp_of_unassigned ?_))
  rw [opField_toNat]
  simp_all

theorem decode_of_decodeWord_none {v : Variant} {w : CmdWord} (h : decodeWord w = none) (record : List Bool) :
    decode v w record = .error .illegalCommand := by
  simp only [decode, h]

end Sys2Proof
end

section
/-! PROOFS. An illegal word is answered ILLEGAL_COMMAND and writes nothing (R128, R130, R131). -/

namespace Sys2Proof.Machine

open Sys2Proof

/-- A transaction for an existing port is presented to the instance there. -/
theorem present_of_port_lt {s : State} {x : Transaction} (rest : List Transaction) (hx : x.port < s.instances.length) :
    s.present x rest = some { before := s.instances.take x.port, here := s.instances[x.port],
                              after := s.instances.drop (x.port + 1), pending := rest, responses := s.responses } := by
  simp [State.present, State.select, hx]

/-- The step on an illegal word raises ILLEGAL_COMMAND at the instance addressed, whatever that instance holds. -/
theorem step_of_illegal_word {s u : State} {x : Transaction} {rest : List Transaction} (hp : s.pending = x :: rest)
    (hu : s.present x rest = some u) (hw : decodeWord x.word = none) : step s = .next (u.raise .illegalCommand) := by
  have hd : u.decodeHere x = .error .illegalCommand := decode_of_decodeWord_none hw x.record
  simp only [step, hp, hu, hd]

/-- Settles O9: each of the four kinds of illegal word decodes to nothing, so the step raises ILLEGAL_COMMAND at the
port, and addressing the port and raising an error leave the instances as they were. -/
theorem illegalWordIsAnsweredAndChangesNothing : Obligations.IllegalWordIsAnsweredAndChangesNothing := by
  unfold Obligations.IllegalWordIsAnsweredAndChangesNothing
  intro s x rest hp hx hill
  have hw : decodeWord x.word = none := by
    rcases hill with hrsv | ⟨hop, hpt⟩ | ⟨hop, hpt⟩ | hun
    · exact decodeWord_of_rsv hrsv
    · exact decodeWord_of_reserved_type hop hpt
    · exact decodeWord_of_untyped hop (.inl hpt)
    · exact decodeWord_of_unassigned hun
  have hport : (s.instances.take x.port).length = x.port := List.length_take_of_le hx.le
  refine ⟨_, step_of_illegal_word hp (present_of_port_lt rest hx) hw, ?_, rfl, ?_, rfl⟩
  · exact instances_of_getElem? (List.getElem?_eq_getElem hx)
  · rw [raise_responses, State.port, hport]
    rfl

end Sys2Proof.Machine
end

section
/-! PROOFS. The BlockMixer: the lane round and the accumulator set against the spec's formulas, and the command MIX
(R8, R67 to R73). -/

namespace Sys2Proof.Machine

open Sys2Proof

/-! ## The lane round and the accumulator set -/

/-- R8's shift formula is the library's rotation, for the rotations R8 allows. -/
theorem rotl_eq_rotateLeft {W r : Nat} (h : r < W) (x : BitVec W) : rotl x r = x.rotateLeft r := by
  rw [rotl, BitVec.rotateLeft_def, Nat.mod_eq_of_lt h]

theorem roundRotation_lt_width (v : Variant) : roundRotation v < v.width := by
  cases v <;> decide

/-- The lane round of any variant with the library's rotation. -/
theorem laneRound_eq_rotateLeft (v : Variant) (acc x : v.Word) :
    laneRound v acc x = (acc + x * P2 v).rotateLeft (roundRotation v) * P1 v := by
  rw [laneRound, rotl_eq_rotateLeft (roundRotation_lt_width v)]

/-- Settles O16: the model's rotation is the library's, and each variant's `P1`, `P2` and `RR` are the constants R67 and
R68 write out. -/
theorem roundIsTheSpecsRound : Obligations.RoundIsTheSpecsRound := by
  unfold Obligations.RoundIsTheSpecsRound
  exact ⟨laneRound_eq_rotateLeft .xxh32, laneRound_eq_rotateLeft .xxh64⟩

/-- Settles O17: `Init` is R70's formula by definition, with each variant's `P1` and `P2` the primes R67 writes out. -/
theorem initUsesThePrimes : Obligations.InitUsesThePrimes := by
  unfold Obligations.InitUsesThePrimes
  exact ⟨fun _ => rfl, fun _ => rfl⟩

/-! ## MIX -/

/-- A block is one word for each of the four lanes. -/
theorem blockBytes_eq_four_words (v : Variant) : v.blockBytes = v.wordBytes * 4 := by
  cases v <;> rfl

/-- The word of each lane lies within a whole block, so it is R10's little-endian sum at the lane's place. -/
theorem laneWord_eq_wordAt {v : Variant} {blk : List Byte} (hb : blk.length = v.blockBytes) {i : Nat} (hi : i ≤ 4) :
    laneWord v blk i = BitVec.ofNat v.width (wordAt blk (v.wordBytes * (i - 1)) v.wordBytes) := by
  have hin : v.wordBytes * (i - 1) + v.wordBytes ≤ blk.length :=
    calc v.wordBytes * (i - 1 + 1) ≤ v.wordBytes * 4 := Nat.mul_le_mul_left _ (by omega)
      _ = blk.length := by rw [hb, blockBytes_eq_four_words]
  rw [laneWord, leWord_eq_wordAt hin]

/-- `Mix` of a whole block by position: lane `i` is rounded with the word at byte `WB·(i − 1)` (R71). -/
theorem mix_eq_rounds {v : Variant} {blk : List Byte} (hb : blk.length = v.blockBytes) (a : Lanes v.width) :
    mix v a blk =
      { v1 := laneRound v a.v1 (BitVec.ofNat v.width (wordAt blk 0 v.wordBytes))
        v2 := laneRound v a.v2 (BitVec.ofNat v.width (wordAt blk v.wordBytes v.wordBytes))
        v3 := laneRound v a.v3 (BitVec.ofNat v.width (wordAt blk (v.wordBytes * 2) v.wordBytes))
        v4 := laneRound v a.v4 (BitVec.ofNat v.width (wordAt blk (v.wordBytes * 3) v.wordBytes)) } := by
  have hword {i : Nat} (hi : i ≤ 4) := laneWord_eq_wordAt hb hi
  rw [mix, hword (by decide), hword (by decide), hword (by decide), hword (by decide)]
  simp

/-- MIX of a whole block of the addressed instance's variant answers with the mixed lanes and writes no state element
(R73). -/
theorem exec_mix_of_here {v : Variant} {h : Hasher v.width} {s : State} {blk : List Byte}
    (hs : s.here = { variant := v, hasher := h }) (hb : blk.length = v.blockBytes) (a1 a2 a3 a4 : v.Word) :
    exec (.mix v a1 a2 a3 a4 blk) s =
      .next (s.answered s.here (.doneWith (.lanes v (mix v { v1 := a1, v2 := a2, v3 := a3, v4 := a4 } blk)))) := by
  have hw : WellFormed s.here.variant (.mix v a1 a2 a3 a4 blk) = true := by
    rw [hs]
    exact Bool.and_eq_true_iff.mpr ⟨decide_eq_true rfl, decide_eq_true hb⟩
  exact performAs_complete_here hw rfl _

/-- Settles O18: the operands fit the instance addressed, so MIX answers the mixed lanes, which are the rounds of the
lanes with the words at their places in the block. -/
theorem mixRoundsEachLaneWithItsWord : Obligations.MixRoundsEachLaneWithItsWord := by
  unfold Obligations.MixRoundsEachLaneWithItsWord
  intro v h s a1 a2 a3 a4 blk hs hb
  refine ⟨Laws.TableWord.mix v a1 a2 a3 a4 blk, ?_⟩
  rw [exec_mix_of_here hs hb, mix_eq_rounds hb]

end Sys2Proof.Machine
end

section
/-! PROOFS. The Finalizer against its algorithm by position in the tail, with the constants written out, and the command
FINALIZE (R75 to R92). -/

namespace Sys2Proof.Machine

open Sys2Proof

/-! ## The units of the tail by position (R82) -/

/-- The word of a unit cut out of a sequence is R10's sum at the unit's place in the whole sequence. -/
theorem leWord_unit_eq_wordAt {s : List Byte} {i n : Nat} (h : i + n ≤ s.length) :
    leWord ((s.drop i).take n) 0 n = wordAt s i n := by
  rw [← leWord_eq_wordAt h, leWord, leWord, List.drop_zero, List.take_take, Nat.min_self]

/-- A loop whose body reads its unit as one little-endian word folds the words at the units' places. -/
theorem eat_fst_eq_foldl_wordAt {α : Type} {n : Nat} {f : α → List Byte → α} {g : α → Nat → α} (hn : 0 < n)
    (hf : ∀ a u x, leWord u 0 n = x → f a u = g a x) (a : α) (s : List Byte) :
    (eat n f a s).1 = (List.range (s.length / n)).foldl (fun a k => g a (wordAt s (n * k) n)) a := by
  rw [eat_fst hn]
  refine List.foldl_ext _ _ _ fun a k hk => ?_
  have hin : n * k + n ≤ s.length :=
    calc n * (k + 1) ≤ n * (s.length / n) := Nat.mul_le_mul_left n (List.mem_range.mp hk)
      _ ≤ s.length := Nat.mul_div_le _ _
  exact hf a _ _ (leWord_unit_eq_wordAt hin)

/-- The end of a sequence, byte by byte. -/
theorem drop_eq_map_getD (s : List Byte) (p : Nat) :
    s.drop p = (List.range (s.length - p)).map fun k => s.getD (p + k) 0 := by
  refine List.ext_getElem (by simp) fun k hk _ => ?_
  have hin : p + k < s.length := by
    rw [List.length_drop] at hk
    omega
  simp [List.getD_eq_getElem?_getD, hin]

/-- However the words of a tail are taken, they end at the last multiple of 4: XXH64's one 4-byte word covers the gap to
the last multiple of 8. -/
theorem tailWords_snd (v : Variant) (h : v.Word) (t : List Byte) :
    (tailWords v h t).2 = t.drop (4 * (t.length / 4)) := by
  cases v with
  | xxh32 => exact eat_snd (by decide) h t
  | xxh64 =>
    have hlen : (eat 8 tailStep8 h t).2.length = t.length % 8 := eat_snd_length (by decide) h t
    rw [tailWords, tailWord4, hlen]
    split
    · have hgap : 8 * (t.length / 8) + 4 = 4 * (t.length / 4) := by omega
      rw [eat_snd (by decide), List.drop_drop, hgap]
    · have hgap : 8 * (t.length / 8) = 4 * (t.length / 4) := by omega
      rw [eat_snd (by decide), hgap]

/-- After its words, a tail has `len mod 4` single bytes, from the last multiple of 4 on. -/
theorem foldTail_eq_foldl_getD (v : Variant) (h : v.Word) (t : List Byte) :
    foldTail v h t =
      (List.range (t.length % 4)).foldl (fun h k => tailStep1 v h (t.getD (4 * (t.length / 4) + k) 0))
        (tailWords v h t).1 := by
  have hrest : t.length - 4 * (t.length / 4) = t.length % 4 := by omega
  rw [foldTail, tailWords_snd, drop_eq_map_getD, hrest, List.foldl_map]

/-! ## The steps of both variants with the library's rotation -/

theorem combineLanes_eq_rotateLeft {W : Nat} (hW : 18 < W) (a : Lanes W) :
    combineLanes a = a.v1.rotateLeft 1 + a.v2.rotateLeft 7 + a.v3.rotateLeft 12 + a.v4.rotateLeft 18 := by
  rw [combineLanes, rotl_eq_rotateLeft (by omega), rotl_eq_rotateLeft (by omega), rotl_eq_rotateLeft (by omega),
    rotl_eq_rotateLeft hW]

/-- R83, on the word of its 8 bytes. -/
theorem tailStep8_of_leWord (h : BitVec 64) (u : List Byte) (x : Nat) (hx : leWord u 0 8 = x) :
    tailStep8 h u = (h ^^^ refRound64 0 (BitVec.ofNat 64 x)).rotateLeft 27 * 0x9E3779B185EBCA87
      + 0x85EBCA77C2B2AE63 := by
  rw [tailStep8, hx, rotl_eq_rotateLeft (by decide), roundIsTheSpecsRound.2]
  rfl

/-- R84, on the word of its 4 bytes. -/
theorem tailStep4_xxh64_of_leWord (h : BitVec 64) (u : List Byte) (x : Nat) (hx : leWord u 0 4 = x) :
    tailStep4 .xxh64 h u =
      (h ^^^ (BitVec.ofNat 64 x * 0x9E3779B185EBCA87)).rotateLeft 23 * 0xC2B2AE3D27D4EB4F
        + 0x165667B19E3779F9 := by
  rw [tailStep4, hx, rotl_eq_rotateLeft (by decide)]
  rfl

/-- R86, on the word of its 4 bytes. -/
theorem tailStep4_xxh32_of_leWord (h : BitVec 32) (u : List Byte) (x : Nat) (hx : leWord u 0 4 = x) :
    tailStep4 .xxh32 h u =
      (h + BitVec.ofNat 32 x * 0xC2B2AE3D).rotateLeft 17 * 0x27D4EB2F := by
  rw [tailStep4, hx, rotl_eq_rotateLeft (by decide)]
  rfl

/-- R85; widening a byte keeps its unsigned value. -/
theorem tailStep1_xxh64_eq (h : BitVec 64) (b : Byte) :
    tailStep1 .xxh64 h b =
      (h ^^^ (BitVec.ofNat 64 b.toNat * 0x27D4EB2F165667C5)).rotateLeft 11 * 0x9E3779B185EBCA87 := by
  rw [tailStep1, rotl_eq_rotateLeft (by decide), BitVec.ofNat_toNat]
  rfl

/-- R87; widening a byte keeps its unsigned value. -/
theorem tailStep1_xxh32_eq (h : BitVec 32) (b : Byte) :
    tailStep1 .xxh32 h b = (h + BitVec.ofNat 32 b.toNat * 0x165667B1).rotateLeft 11 * 0x9E3779B1 := by
  rw [tailStep1, rotl_eq_rotateLeft (by decide), BitVec.ofNat_toNat]
  rfl

/-! ## `Finalize64` (R90) -/

theorem mergeRound_eq (h x : BitVec 64) :
    mergeRound h x = (h ^^^ refRound64 0 x) * 0x9E3779B185EBCA87 + 0x85EBCA77C2B2AE63 := by
  rw [mergeRound, roundIsTheSpecsRound.2]
  rfl

theorem startValue_xxh64 (a : Lanes 64) (tot seed : BitVec 64) :
    startValue .xxh64 a tot seed = refStart64 a tot seed := by
  rw [startValue, mergeLanes, combineLanes_eq_rotateLeft (by decide)]
  simp only [mergeRound_eq]
  rfl

theorem foldLength_xxh64 (h tot : BitVec 64) : foldLength .xxh64 h tot = h + tot :=
  congrArg (h + ·) (BitVec.setWidth_eq tot)

/-- The words of an XXH64 tail: the 8-byte words, then the word at the last multiple of 8 where 4 bytes are left. -/
theorem tailWords_xxh64_fst (h : BitVec 64) (t : List Byte) :
    (tailWords .xxh64 h t).1 =
      if 4 ≤ t.length % 8 then
        ((eat 8 tailStep8 h t).1 ^^^
            (BitVec.ofNat 64 (wordAt t (8 * (t.length / 8)) 4) * 0x9E3779B185EBCA87)).rotateLeft 23
          * 0xC2B2AE3D27D4EB4F + 0x165667B19E3779F9
      else (eat 8 tailStep8 h t).1 := by
  have hlen : (eat 8 tailStep8 h t).2.length = t.length % 8 := eat_snd_length (by decide) h t
  rw [tailWords, tailWord4, hlen]
  split
  · have hin : 8 * (t.length / 8) + 4 ≤ t.length := by omega
    rw [eat_snd (by decide), tailStep4_xxh64_of_leWord _ _ _ (leWord_unit_eq_wordAt hin)]
  · rfl

theorem foldTail_xxh64 (h : BitVec 64) (t : List Byte) : foldTail .xxh64 h t = refTail64 h t := by
  rw [foldTail_eq_foldl_getD, tailWords_xxh64_fst, eat_fst_eq_foldl_wordAt (by decide) tailStep8_of_leWord]
  simp only [tailStep1_xxh64_eq]
  rfl

theorem avalanche_xxh64 (h : BitVec 64) : avalanche .xxh64 h = refAvalanche64 h := rfl

/-- Settles O21: the start value, the length fold, the tail and the avalanche are each the algorithm's. -/
theorem finalize64IsTheAlgorithm : Obligations.Finalize64IsTheAlgorithm := by
  unfold Obligations.Finalize64IsTheAlgorithm
  intro a tot tail seed
  rw [finalizeDigest, startValue_xxh64, foldLength_xxh64, foldTail_xxh64, avalanche_xxh64, refFinalize64]

/-! ## `Finalize32` (R91) -/

theorem startValue_xxh32 (a : Lanes 32) (tot : BitVec 64) (seed : BitVec 32) :
    startValue .xxh32 a tot seed = refStart32 a tot seed := by
  rw [startValue, mergeLanes, combineLanes_eq_rotateLeft (by decide)]
  rfl

theorem foldLength_xxh32 (h : BitVec 32) (tot : BitVec 64) :
    foldLength .xxh32 h tot = h + tot.extractLsb' 0 32 :=
  congrArg (h + ·) (BitVec.setWidth_eq_extractLsb' (by decide))

theorem foldTail_xxh32 (h : BitVec 32) (t : List Byte) : foldTail .xxh32 h t = refTail32 h t := by
  rw [foldTail_eq_foldl_getD, tailWords, eat_fst_eq_foldl_wordAt (by decide) tailStep4_xxh32_of_leWord]
  simp only [tailStep1_xxh32_eq]
  rfl

theorem avalanche_xxh32 (h : BitVec 32) : avalanche .xxh32 h = refAvalanche32 h := rfl

/-- Settles O22: the start value, the length fold, the tail and the avalanche are each the algorithm's. -/
theorem finalize32IsTheAlgorithm : Obligations.Finalize32IsTheAlgorithm := by
  unfold Obligations.Finalize32IsTheAlgorithm
  intro a tot tail seed
  rw [finalizeDigest, startValue_xxh32, foldLength_xxh32, foldTail_xxh32, avalanche_xxh32, refFinalize32]

/-! ## FINALIZE -/

theorem resCap_eq_blockBytes_sub_one (v : Variant) : v.resCap = v.blockBytes - 1 := by
  cases v <;> rfl

/-- FINALIZE with a tail below one block of the addressed instance's variant answers with the digest and writes no state
element (R92). -/
theorem exec_finalize_of_here {v : Variant} {h : Hasher v.width} {s : State} {tail : List Byte}
    (hs : s.here = { variant := v, hasher := h }) (ht : tail.length ≤ v.blockBytes - 1) (a1 a2 a3 a4 : v.Word)
    (tot : BitVec 64) (seed : v.Word) :
    exec (.finalize v a1 a2 a3 a4 tot tail seed) s = .next (s.answered s.here (.doneWith (.digest v
      (finalizeDigest v { v1 := a1, v2 := a2, v3 := a3, v4 := a4 } tot tail seed)))) := by
  have hfits : tail.length ≤ v.resCap := (resCap_eq_blockBytes_sub_one v).symm ▸ ht
  have hw : WellFormed s.here.variant (.finalize v a1 a2 a3 a4 tot tail seed) = true := by
    rw [hs]
    exact Bool.and_eq_true_iff.mpr ⟨decide_eq_true rfl, decide_eq_true hfits⟩
  exact performAs_complete_here hw rfl _

/-- Settles O20: the word is the table's, and a tail below one block is all that FINALIZE asks of its operands, so it
answers whatever the total. -/
theorem finalizeAnswersItsDigest : Obligations.FinalizeAnswersItsDigest := by
  unfold Obligations.FinalizeAnswersItsDigest
  intro v h s a1 a2 a3 a4 tot tail seed hs ht
  exact ⟨Laws.TableWord.finalize v a1 a2 a3 a4 tot tail seed, exec_finalize_of_here hs ht a1 a2 a3 a4 tot seed⟩

end Sys2Proof.Machine
end

section
/-! PROOFS. UPDATE.BYTES: absorbing by the loop of R94 is absorbing by position in the stream, and what the
shared effect of every UPDATE does in either lifecycle state (R94, R97). -/

namespace Sys2Proof.Machine

open Sys2Proof

/-! ## Absorbing by position -/

theorem blockBytes_pos (v : Variant) : 0 < v.blockBytes := by
  cases v <;> decide

/-- The block loop of UPDATE and ONESHOT mixes the whole blocks in stream order and leaves what is after them (R36). -/
theorem eat_mix_eq (v : Variant) (a : Lanes v.width) (s : List Byte) :
    eat v.blockBytes (mix v) a s = ((fullBlocks v s).foldl (mix v) a, afterBlocks v s) := by
  refine Prod.ext ?_ (eat_snd (blockBytes_pos v) a s)
  rw [eat_fst (blockBytes_pos v), fullBlocks, List.foldl_map]

/-- `Absorb` leaves the elements R94 gives by position; the counter's sum modulo `2^64` is that of the numbers. -/
theorem absorb_eq_fed (v : Variant) (h : Hasher v.width) (data : List Byte) : h.absorb v data = h.fed v data := by
  have htotal : h.total + BitVec.ofNat 64 data.length = BitVec.ofNat 64 (h.total.toNat + data.length) := by
    rw [BitVec.ofNat_add, BitVec.ofNat_toNat, BitVec.setWidth_eq]
  rw [Hasher.absorb, eat_mix_eq, htotal, Hasher.fed]

/-! ## The effect of every UPDATE -/

/-- An Active instance absorbs the bytes and answers OK. -/
theorem update_of_active {v : Variant} {h : Hasher v.width} {s : State} (hs : s.here = { variant := v, hasher := h })
    (ha : h.life = .active) (data : List Byte) :
    s.update data = s.answered { variant := v, hasher := h.fed v data } .done := by
  have hl : s.here.hasher.life = .active := by rw [hs, ha]
  rw [State.update, whenActive_of_active hl, complete_eq_answered, hs, Block.absorb, absorb_eq_fed]
  rfl

/-- A Destroyed instance answers INVALID_STATE and absorbs nothing. -/
theorem update_of_destroyed {s : State} (hl : s.here.hasher.life = .destroyed) (data : List Byte) :
    s.update data = s.answered s.here (.failed .invalidState) := by
  rw [State.update, whenActive_of_destroyed hl, raise_eq_answered]

/-- UPDATE.BYTES of an operand whose length its field can say performs the shared effect (R56, R97). -/
theorem exec_updateBytes_of_fits {data : List Byte} (hd : data.length < 2 ^ 64) (s : State) :
    exec (.updateBytes data) s = .next (s.update data) :=
  if_pos (decide_eq_true hd)

/-- Settles O29: the operand fits its length field, so the instance absorbs it where it is Active, which is absorbing by
position in the stream, and fails where it is Destroyed. -/
theorem updateBytesAbsorbsTheStream : Obligations.UpdateBytesAbsorbsTheStream := by
  unfold Obligations.UpdateBytesAbsorbsTheStream
  intro v h s data hs hd
  refine ⟨Laws.TableWord.updateBytes data, fun ha => ?_, fun hl => ?_⟩
  · rw [exec_updateBytes_of_fits hd, update_of_active hs ha, Hasher.fed, ha]
  · rw [exec_updateBytes_of_fits hd, update_of_destroyed (by rw [hs, hl])]

end Sys2Proof.Machine
end

section
/-! PROOFS. The lifecycle commands CREATE, RESET and DISPOSE, and DIGEST, in either lifecycle state (R95, R96, R98,
R99). -/

namespace Sys2Proof.Machine

open Sys2Proof

/-! ## CREATE and RESET -/

section Start

variable {v : Variant} {h : Hasher v.width} {s : State} (hs : s.here = { variant := v, hasher := h })

include hs

/-- CREATE starts a hasher on a Destroyed instance. -/
theorem exec_create_of_destroyed (hl : h.life = .destroyed) (seed : v.Word) :
    exec (.create v seed) s = .next (s.answered { variant := v, hasher := startHasher v seed } .done) := by
  rw [exec, execCreate, performAs_of_here hs, hl]
  rfl

/-- CREATE fails on an Active instance. -/
theorem exec_create_of_active (ha : h.life = .active) (seed : v.Word) :
    exec (.create v seed) s = .next (s.answered s.here (.failed .invalidState)) := by
  rw [exec, execCreate, performAs_of_here hs, ha, ← raise_eq_answered]

/-- RESET restarts an Active instance, as CREATE starts a Destroyed one. -/
theorem exec_reset_of_active (ha : h.life = .active) (seed : v.Word) :
    exec (.reset v seed) s = .next (s.answered { variant := v, hasher := startHasher v seed } .done) := by
  have hl : s.here.hasher.life = .active := by rw [hs, ha]
  rw [exec, execReset, performAs_of_here hs, whenActive_of_active hl]
  rfl

/-- RESET fails on a Destroyed instance. -/
theorem exec_reset_of_destroyed (hl : h.life = .destroyed) (seed : v.Word) :
    exec (.reset v seed) s = .next (s.answered s.here (.failed .invalidState)) := by
  have hd : s.here.hasher.life = .destroyed := by rw [hs, hl]
  rw [exec, execReset, performAs_of_here hs, whenActive_of_destroyed hd, raise_eq_answered]

end Start

/-- Settles O25: the seed has the addressed instance's width, so the lifecycle alone decides between the start and the
failure. -/
theorem createStartsAHasher : Obligations.CreateStartsAHasher := by
  unfold Obligations.CreateStartsAHasher
  intro v h s seed hs
  exact ⟨Laws.TableWord.create v seed, fun hl => exec_create_of_destroyed hs hl seed,
    fun ha => exec_create_of_active hs ha seed⟩

/-- Settles O26: as for CREATE, with the lifecycle's two states exchanged. -/
theorem resetRestartsTheHasher : Obligations.ResetRestartsTheHasher := by
  unfold Obligations.ResetRestartsTheHasher
  intro v h s seed hs
  exact ⟨Laws.TableWord.reset v seed, fun ha => exec_reset_of_active hs ha seed,
    fun hl => exec_reset_of_destroyed hs hl seed⟩

/-! ## DISPOSE -/

/-- DISPOSE completes in either lifecycle state. -/
theorem exec_dispose (s : State) : exec .dispose s = .next (s.answered s.here.disposed .done) := by
  rw [exec, execDispose, complete_eq_answered]
  rfl

/-- Writing `LIFE` only changes nothing where `LIFE` is 0 already. -/
theorem disposed_of_destroyed {b : Block} (hl : b.hasher.life = .destroyed) : b.disposed = b := by
  rw [Block.disposed, ← hl]

/-- Settles O27: DISPOSE leaves the addressed instance with `LIFE` 0 and its other elements, which is that
same instance where it was Destroyed. -/
theorem disposeWritesLifeOnly : Obligations.DisposeWritesLifeOnly := by
  unfold Obligations.DisposeWritesLifeOnly
  intro v h s hs
  refine ⟨Laws.TableWord.dispose, ?_, fun hl => ?_⟩
  · rw [exec_dispose, hs, Block.disposed]
  · rw [exec_dispose, disposed_of_destroyed (by rw [hs, hl])]

/-! ## DIGEST -/

/-- DIGEST answers an Active instance's digest and writes no element. -/
theorem exec_digest_of_active {s : State} (ha : s.here.hasher.life = .active) :
    exec .digest s = .next (s.answered s.here (.doneWith s.here.digest)) := by
  rw [exec, execDigest, whenActive_of_active ha, complete_eq_answered]
  rfl

/-- DIGEST fails on a Destroyed instance. -/
theorem exec_digest_of_destroyed {s : State} (hl : s.here.hasher.life = .destroyed) :
    exec .digest s = .next (s.answered s.here (.failed .invalidState)) := by
  rw [exec, execDigest, whenActive_of_destroyed hl, raise_eq_answered]

/-- Settles O33: the digest an Active instance answers is `Finalize` of its elements; in either state the instance is
answered as it was. -/
theorem digestReadsWithoutWriting : Obligations.DigestReadsWithoutWriting := by
  unfold Obligations.DigestReadsWithoutWriting
  intro v h s hs
  refine ⟨Laws.TableWord.digest, fun ha => ?_, fun hl => exec_digest_of_destroyed (by rw [hs, hl])⟩
  rw [exec_digest_of_active (by rw [hs, ha]), hs, Block.digest]

end Sys2Proof.Machine
end

section
/-! PROOFS. ONESHOT: its two branches are one digest of the whole operand by position (R103). -/

namespace Sys2Proof.Machine

open Sys2Proof

/-! ## Sequences shorter than a block -/

theorem fullBlocks_of_lt {v : Variant} {s : List Byte} (h : s.length < v.blockBytes) : fullBlocks v s = [] := by
  rw [fullBlocks, Nat.div_eq_of_lt h, List.range_zero, List.map_nil]

theorem afterBlocks_of_lt {v : Variant} {s : List Byte} (h : s.length < v.blockBytes) : afterBlocks v s = s := by
  rw [afterBlocks, Nat.div_eq_of_lt h, Nat.mul_zero, List.drop_zero]

/-! ## ONESHOT -/

/-- The short branch of R103 is the long one with no whole block to mix. -/
theorem oneShotDigest_eq_finalizeDigest (v : Variant) (seed : v.Word) (data : List Byte) :
    oneShotDigest v seed data =
      finalizeDigest v ((fullBlocks v data).foldl (mix v) (initLanes v seed)) (BitVec.ofNat 64 data.length)
        (afterBlocks v data) seed := by
  by_cases hlong : v.blockBytes ≤ data.length
  · rw [oneShotDigest, if_pos hlong, eat_mix_eq]
  · have hshort : data.length < v.blockBytes := Nat.lt_of_not_le hlong
    rw [oneShotDigest, if_neg hlong, fullBlocks_of_lt hshort, afterBlocks_of_lt hshort, List.foldl_nil]

/-- ONESHOT at an instance of its variant answers with the operand's digest and writes no state element, in either
lifecycle state (R103). -/
theorem exec_oneshot_of_here {v : Variant} {h : Hasher v.width} {s : State} {data : List Byte}
    (hs : s.here = { variant := v, hasher := h }) (hd : data.length < 2 ^ 64) (seed : v.Word) :
    exec (.oneshot v seed data) s =
      .next (s.answered s.here (.doneWith (.digest v (oneShotDigest v seed data)))) := by
  have hw : WellFormed s.here.variant (.oneshot v seed data) = true := by
    rw [hs]
    exact Bool.and_eq_true_iff.mpr ⟨decide_eq_true rfl, decide_eq_true hd⟩
  exact performAs_complete_here hw rfl _

/-- Settles O40: the word is the table's; the operand fits its length field, so ONESHOT answers its digest, which both
branches give by position in the operand. -/
theorem oneShotDigestsTheWholeOperand : Obligations.OneShotDigestsTheWholeOperand := by
  unfold Obligations.OneShotDigestsTheWholeOperand
  intro v h s seed data hs hd
  refine ⟨Laws.TableWord.oneshot v seed data, ?_⟩
  rw [exec_oneshot_of_here hs hd, oneShotDigest_eq_finalizeDigest]

end Sys2Proof.Machine
end

section
/-! PROOFS. The PrimitiveEncoder: the bytes of each primitive value by their places, ENCODE.T answering them and UPDATE.T
absorbing them (R105 to R122). -/

namespace Sys2Proof.Machine

open Sys2Proof

/-! ## The bytes of each primitive value (R105) -/

/-- A bit widened to a byte is the byte 0 or 1 (R106). -/
theorem encBool_eq_ite (val : BitVec 1) : encBool val = [if val = 1 then 0x01 else 0x00] := by
  rcases BitVec.eq_zero_or_eq_one val with rfl | rfl <;> rfl

theorem encByte_eq_singleton (val : BitVec 8) : encByte val = [val] := by
  rw [encByte, leBytes, leBytes, BitVec.ofNat_toNat, BitVec.setWidth_eq]

theorem encChar_eq_bytesOf (val : BitVec 16) : encChar val = bytesOf 2 val := leBytes_toNat_eq_bytesOf 2 val

theorem encShort_eq_bytesOf (val : BitVec 16) : encShort val = bytesOf 2 val := leBytes_toNat_eq_bytesOf 2 val

theorem encInt_eq_bytesOf (val : BitVec 32) : encInt val = bytesOf 4 val := leBytes_toNat_eq_bytesOf 4 val

theorem encLong_eq_bytesOf (val : BitVec 64) : encLong val = bytesOf 8 val := leBytes_toNat_eq_bytesOf 8 val

theorem encFloat_eq_bytesOf (val : BitVec 32) : encFloat val = bytesOf 4 val := leBytes_toNat_eq_bytesOf 4 val

theorem encDouble_eq_bytesOf (val : BitVec 64) : encDouble val = bytesOf 8 val := leBytes_toNat_eq_bytesOf 8 val

theorem bytesOf_two {W : Nat} (x : BitVec W) : bytesOf 2 x = [x.extractLsb' 0 8, x.extractLsb' 8 8] := rfl

theorem bytesOf_four {W : Nat} (x : BitVec W) :
    bytesOf 4 x = [x.extractLsb' 0 8, x.extractLsb' 8 8, x.extractLsb' 16 8, x.extractLsb' 24 8] := rfl

theorem bytesOf_eight {W : Nat} (x : BitVec W) :
    bytesOf 8 x = [x.extractLsb' 0 8, x.extractLsb' 8 8, x.extractLsb' 16 8, x.extractLsb' 24 8,
      x.extractLsb' 32 8, x.extractLsb' 40 8, x.extractLsb' 48 8, x.extractLsb' 56 8] := rfl

/-! ## ENCODE.T -/

/-- A command that answers an encoding writes no state element and answers OK with its bytes. -/
theorem exec_of_answerBytes {i : Instr} {s : State} {data bytes : List Byte}
    (hexec : exec i s = .next (s.answerBytes data)) (hbytes : data = bytes) :
    exec i s = .next (s.answered s.here (.doneWith (.bytes bytes))) := by
  rw [hexec, hbytes, State.answerBytes, complete_eq_answered]
  rfl

/-- Settles O42: ENCODE.T answers the bytes of its value in every state, and those bytes are its bits by position. -/
theorem encodersEmitLittleEndianBytes : Obligations.EncodersEmitLittleEndianBytes := by
  unfold Obligations.EncodersEmitLittleEndianBytes
  intro s
  exact ⟨
    fun val => ⟨Laws.TableWord.encodeBool val, exec_of_answerBytes rfl (encBool_eq_ite val)⟩,
    fun val => ⟨Laws.TableWord.encodeByte val, exec_of_answerBytes rfl (encByte_eq_singleton val)⟩,
    fun val => ⟨Laws.TableWord.encodeChar val,
      exec_of_answerBytes rfl ((encChar_eq_bytesOf val).trans (bytesOf_two val))⟩,
    fun val => ⟨Laws.TableWord.encodeShort val,
      exec_of_answerBytes rfl ((encShort_eq_bytesOf val).trans (bytesOf_two val))⟩,
    fun val => ⟨Laws.TableWord.encodeInt val,
      exec_of_answerBytes rfl ((encInt_eq_bytesOf val).trans (bytesOf_four val))⟩,
    fun val => ⟨Laws.TableWord.encodeLong val,
      exec_of_answerBytes rfl ((encLong_eq_bytesOf val).trans (bytesOf_eight val))⟩,
    fun val => ⟨Laws.TableWord.encodeFloat val,
      exec_of_answerBytes rfl ((encFloat_eq_bytesOf val).trans (bytesOf_four val))⟩,
    fun val => ⟨Laws.TableWord.encodeDouble val,
      exec_of_answerBytes rfl ((encDouble_eq_bytesOf val).trans (bytesOf_eight val))⟩⟩

/-! ## UPDATE.T -/

/-- Every UPDATE that fits the addressed instance performs the shared effect on its own bytes (R97, R114). -/
theorem exec_eq_update_absorbs {i : Instr} {s : State} (hi : i.command.updates = true)
    (hw : WellFormed s.here.variant i = true) : exec i s = .next (s.update i.absorbs) := by
  cases i with
  | updateBytes data => exact exec_updateBytes_of_fits (of_decide_eq_true hw) s
  | updateBool val => rw [exec, execUpdateBool, encBool_eq_ite, Instr.absorbs]
  | updateByte val => rw [exec, execUpdateByte, encByte_eq_singleton, Instr.absorbs]
  | updateChar val => rw [exec, execUpdateChar, encChar_eq_bytesOf, Instr.absorbs]
  | updateShort val => rw [exec, execUpdateShort, encShort_eq_bytesOf, Instr.absorbs]
  | updateInt val => rw [exec, execUpdateInt, encInt_eq_bytesOf, Instr.absorbs]
  | updateLong val => rw [exec, execUpdateLong, encLong_eq_bytesOf, Instr.absorbs]
  | updateFloat val => rw [exec, execUpdateFloat, encFloat_eq_bytesOf, Instr.absorbs]
  | updateDouble val => rw [exec, execUpdateDouble, encDouble_eq_bytesOf, Instr.absorbs]
  | create | reset | dispose | digest | oneshot | mix | finalize | encodeBool | encodeByte | encodeChar | encodeShort
  | encodeInt | encodeLong | encodeFloat | encodeDouble => cases hi

/-- What an UPDATE that fits the addressed instance does in either lifecycle state. -/
theorem exec_update_by_life {v : Variant} {h : Hasher v.width} {s : State} {i : Instr}
    (hs : s.here = { variant := v, hasher := h }) (hi : i.command.updates = true)
    (hw : WellFormed s.here.variant i = true) :
    (h.life = .active → exec i s = .next (s.answered { variant := v, hasher := h.fed v i.absorbs } .done)) ∧
      (h.life = .destroyed → exec i s = .next (s.answered s.here (.failed .invalidState))) := by
  rw [exec_eq_update_absorbs hi hw]
  refine ⟨fun ha => ?_, fun hl => ?_⟩
  · rw [update_of_active hs ha]
  · rw [update_of_destroyed (by rw [hs, hl])]

/-- Settles O30: the operand of an UPDATE.T fits every instance, so the command performs the shared effect of every
UPDATE, with the bytes of its value. -/
theorem updateOfAPrimitiveAbsorbsItsBytes : Obligations.UpdateOfAPrimitiveAbsorbsItsBytes := by
  unfold Obligations.UpdateOfAPrimitiveAbsorbsItsBytes
  intro v h s hs
  exact ⟨
    fun val => ⟨Laws.TableWord.updateBool val, exec_update_by_life (i := .updateBool val) hs rfl rfl⟩,
    fun val => ⟨Laws.TableWord.updateByte val, exec_update_by_life (i := .updateByte val) hs rfl rfl⟩,
    fun val => ⟨Laws.TableWord.updateChar val, exec_update_by_life (i := .updateChar val) hs rfl rfl⟩,
    fun val => ⟨Laws.TableWord.updateShort val, exec_update_by_life (i := .updateShort val) hs rfl rfl⟩,
    fun val => ⟨Laws.TableWord.updateInt val, exec_update_by_life (i := .updateInt val) hs rfl rfl⟩,
    fun val => ⟨Laws.TableWord.updateLong val, exec_update_by_life (i := .updateLong val) hs rfl rfl⟩,
    fun val => ⟨Laws.TableWord.updateFloat val, exec_update_by_life (i := .updateFloat val) hs rfl rfl⟩,
    fun val => ⟨Laws.TableWord.updateDouble val, exec_update_by_life (i := .updateDouble val) hs rfl rfl⟩⟩

end Sys2Proof.Machine
end

section
/-! PROOFS. The errors: what the lifecycle lets through, and that a command that fails leaves the block as it was (R128
to R131). -/

namespace Sys2Proof.Machine

open Sys2Proof

/-! ## A command that fails (R131) -/

/-- Of the ways a command can end, the one that fails leaves the addressed instance as it was and returns no result. -/
theorem Ends.answered_of_status {i : Instr} {s t : State} (h : Ends i s t) :
    ∃ b r, t = s.answered b r ∧ (r.status ≠ .ok → b = s.here ∧ r.result = none) := by
  cases h with
  | failed => exact ⟨_, _, rfl, fun _ => ⟨rfl, rfl⟩⟩
  | result | started | disposed | fed => exact ⟨_, _, rfl, fun hne => absurd rfl hne⟩

/-- A step that takes a transaction answers it at the instance addressed, and a failure, for the word or for the
lifecycle, leaves that instance as it was. -/
theorem step_answered_of_status {s t : State} {x : Transaction} {rest : List Transaction} (hp : s.pending = x :: rest)
    (h : step s = .next t) :
    ∃ u b r, s.present x rest = some u ∧ t = u.answered b r ∧ (r.status ≠ .ok → b = u.here ∧ r.result = none) := by
  rcases step_cases h with ⟨hnone, -⟩ | ⟨y, rest', u, hp', hu, hend⟩
  · rw [hp] at hnone
    cases hnone
  · obtain ⟨rfl, rfl⟩ := List.cons.inj (hp.symm.trans hp')
    rcases hend with ⟨-, rfl⟩ | ⟨i, -, hexec⟩
    · exact ⟨u, u.here, .failed .illegalCommand, hu, raise_eq_answered u _, fun _ => ⟨rfl, rfl⟩⟩
    · obtain ⟨b, r, hr⟩ := (exec_ends hexec).answered_of_status
      exact ⟨u, b, r, hu, hr⟩

/-- Settles O13: the step answers at the instance the transaction addresses, a failure leaves that instance as it was,
and addressing an instance leaves all of them in place. -/
theorem failedCommandsWriteNothing : Obligations.FailedCommandsWriteNothing := by
  unfold Obligations.FailedCommandsWriteNothing
  intro s t x rest hp h
  obtain ⟨u, b, r, hu, rfl, hfail⟩ := step_answered_of_status hp h
  obtain ⟨c, hc, rfl⟩ := present_eq_some hu
  have hport : (s.instances.take x.port).length = x.port :=
    List.length_take_of_le (List.getElem?_eq_some_iff.mp hc).1.le
  refine ⟨r, ?_, fun hne => ?_⟩
  · rw [State.answered, hport]
  · obtain ⟨rfl, hnone⟩ := hfail hne
    exact ⟨instances_of_getElem? hc, hnone⟩

/-! ## What the lifecycle lets through (R129) -/

/-- A stateless command is none of those that the lifecycle concerns (R25). -/
theorem kinds_of_stateless {c : Command} (h : c.stateless = true) :
    c ≠ .create ∧ c ≠ .reset ∧ c ≠ .digest ∧ c ≠ .dispose ∧ c.updates = false := by
  cases c with
  | oneshot | mix | finalize | encode => simp [Command.updates]
  | create | reset | dispose | updateBytes | update | digest => cases h

/-- An UPDATE is no other command and not stateless (R25). -/
theorem kinds_of_updates {c : Command} (h : c.updates = true) :
    c ≠ .create ∧ c ≠ .reset ∧ c ≠ .digest ∧ c ≠ .dispose ∧ c.stateless = false := by
  cases c with
  | updateBytes | update => simp [Command.stateless]
  | oneshot | mix | finalize | encode | create | reset | dispose | digest => cases h

@[simp] theorem done_status : Response.done.status = .ok := rfl

@[simp] theorem doneWith_status (r : Result) : (Response.doneWith r).status = .ok := rfl

@[simp] theorem absorb_life (b : Block) (data : List Byte) : (b.absorb data).hasher.life = b.hasher.life := rfl

/-- Settles O14: a well-formed command completes in one of the ways of `Ends`, and the kind of command and the
lifecycle that each way asks for leave only the clauses that it meets. -/
theorem lifecycleDecidesWhatIsPerformed : Obligations.LifecycleDecidesWhatIsPerformed := by
  unfold Obligations.LifecycleDecidesWhatIsPerformed
  intro s i hw
  obtain ⟨_, _, hanswers⟩ := exec_answers hw
  obtain ⟨t, hexec⟩ : ∃ t, exec i s = .next t := ⟨_, hanswers s rfl⟩
  cases exec_ends hexec with
  | failed h =>
    obtain ⟨hstateful, hnotDispose, hcreate⟩ := h
    refine ⟨_, _, hexec, fun _ => ⟨rfl, rfl, rfl⟩, ?_, ?_, fun hc => absurd hc hnotDispose, ?_⟩
    · rintro ⟨hc, hl⟩
      simp [hcreate.mp hc] at hl
    · rintro ⟨hc, ha⟩
      simp [hcreate.mpr ha, Command.updates] at hc
    · simp [hstateful]
  | result r h =>
    refine ⟨_, _, hexec, ?_⟩
    rcases h with hstateless | ⟨hc, ha⟩
    · simp [kinds_of_stateless hstateless]
    · simp [hc, ha, Command.updates]
  | started seed h =>
    refine ⟨_, _, hexec, ?_⟩
    rcases h with ⟨hc, hl⟩ | ⟨hc, ha⟩
    · simp [hc, hl, Command.updates, Command.stateless]
    · simp [hc, ha, Command.updates, Command.stateless]
  | disposed hc =>
    have hnoop : s.here.hasher.life = .destroyed → s.here.disposed = s.here := disposed_of_destroyed
    refine ⟨_, _, hexec, ?_⟩
    simpa [hc, Command.updates, Command.stateless] using hnoop
  | fed data hc ha =>
    refine ⟨_, _, hexec, ?_⟩
    simp [kinds_of_updates hc, ha]

end Sys2Proof.Machine
end

section
/-! PROOFS. A DIGEST anywhere in a sequence of commands (R148, R149): a sequence looks at the addressed instance only,
and DIGEST leaves that instance as it was. -/

namespace Sys2Proof.Machine

open Sys2Proof

/-! ## A sequence cut in two -/

/-- A command that goes on hands its state to the commands after it. -/
theorem execAll_cons_of_next {i : Instr} {s u : State} (h : exec i s = .next u) (is : List Instr) :
    execAll (i :: is) s = execAll is u := by
  rw [execAll, h]

/-- Commands that go on hand their state to the commands after them. -/
theorem execAll_append_of_next {is : List Instr} {s u : State} (h : execAll is s = .next u) (js : List Instr) :
    execAll (is ++ js) s = execAll js u := by
  induction is generalizing s with
  | nil =>
    cases h
    rfl
  | cons i is ih =>
    obtain ⟨v, hv, hrest⟩ := execAll_cons_next h
    rw [List.cons_append, execAll_cons_of_next hv, ih hrest]

/-- A sequence that goes on does so through a state between any two parts of it. -/
theorem execAll_append_next {is js : List Instr} {s t : State} (h : execAll (is ++ js) s = .next t) :
    ∃ u, execAll is s = .next u ∧ execAll js u = .next t := by
  induction is generalizing s with
  | nil => exact ⟨s, rfl, h⟩
  | cons i is ih =>
    obtain ⟨v, hv, hrest⟩ := execAll_cons_next h
    obtain ⟨u, hu, ht⟩ := ih hrest
    exact ⟨u, (execAll_cons_of_next hv is).trans hu, ht⟩

/-! ## What a sequence depends on -/

/-- `s` after the addressed instance has become `b` and has given the responses `rs`; everything else as it was. -/
def State.answeredAll (s : State) (b : Block) (rs : List Response) : State :=
  { s with
    here := b
    responses := s.responses ++ rs.map fun r => { port := s.before.length, response := r } }

@[simp] theorem answeredAll_nil (s : State) : s.answeredAll s.here [] = s := by
  simp [State.answeredAll]

/-- One answer and then others are one sequence of answers. -/
@[simp] theorem answered_answeredAll (s : State) (b c : Block) (r : Response) (rs : List Response) :
    (s.answered b r).answeredAll c rs = s.answeredAll c (r :: rs) := by
  simp [State.answeredAll, State.answered]

/-- Commands that go on give one response each; those responses and the instance they leave depend on the addressed
instance alone: not on the other instances, the pending transactions or the replies given. -/
theorem execAll_answers {is : List Instr} {s t : State} (h : execAll is s = .next t) :
    ∃ b rs, rs.length = is.length ∧ ∀ u : State, u.here = s.here → execAll is u = .next (u.answeredAll b rs) := by
  induction is generalizing s with
  | nil => exact ⟨s.here, [], rfl, fun u hu => by rw [← hu, answeredAll_nil, execAll]⟩
  | cons i is ih =>
    obtain ⟨v, hv, hrest⟩ := execAll_cons_next h
    obtain ⟨b, r, hr⟩ := exec_answers (wellFormed_of_exec_next hv)
    obtain rfl : s.answered b r = v := Host.Outcome.next.inj ((hr s rfl).symm.trans hv)
    obtain ⟨c, rs, hlen, hrs⟩ := ih hrest
    refine ⟨c, r :: rs, congrArg Nat.succ hlen, fun u hu => ?_⟩
    rw [execAll_cons_of_next (hr u hu), hrs (u.answered b r) rfl, answered_answeredAll]

/-! ## DIGEST between two commands -/

/-- DIGEST answers in either lifecycle state and leaves the addressed instance as it was. -/
theorem exec_digest_answers (s : State) : ∃ r, exec .digest s = .next (s.answered s.here r) := by
  cases hl : s.here.hasher.life with
  | active => exact ⟨_, exec_digest_of_active hl⟩
  | destroyed => exact ⟨_, exec_digest_of_destroyed hl⟩

/-- Settles O39: the DIGEST leaves the commands after it the instance that they would meet without it, so they answer
as they would, after one reply more. -/
theorem digestMayStandAnywhere : Obligations.DigestMayStandAnywhere := by
  unfold Obligations.DigestMayStandAnywhere
  intro s t is js h
  obtain ⟨u, hu, ht⟩ := execAll_append_next h
  obtain ⟨b, rs, hlen, his⟩ := execAll_answers hu
  obtain ⟨c, qs, -, hjs⟩ := execAll_answers ht
  obtain ⟨r, hr⟩ := exec_digest_answers u
  obtain rfl : u.answeredAll c qs = t := Host.Outcome.next.inj ((hjs u rfl).symm.trans ht)
  have hdigest : execAll (is ++ .digest :: js) s = .next (u.answeredAll c (r :: qs)) := by
    rw [execAll_append_of_next hu, execAll_cons_of_next hr, hjs (u.answered u.here r) rfl, answered_answeredAll]
  have hcount : u.responses.length = s.responses.length + is.length := by
    obtain rfl : s.answeredAll b rs = u := Host.Outcome.next.inj ((his s rfl).symm.trans hu)
    simp [State.answeredAll, hlen]
  exact ⟨_, u.responses, _, _, hdigest, rfl, rfl, rfl, rfl, hcount, rfl, rfl⟩

end Sys2Proof.Machine
end

section
/-! PROOFS. Encoding and decoding are inverse: a word is a command's exactly where it is that command's row of the
table, a record reads back as its command exactly where it is that command's record (R52 to R61, log 3). -/

namespace Sys2Proof

/-! ## The command word -/

theorem eq_primCode_of_primOfCode {pt : BitVec 4} {t : PrimType} (h : primOfCode pt = some t) : pt = primCode t := by
  have hall : ∀ pt : BitVec 4, ∀ t ∈ primOfCode pt, pt = primCode t := by decide
  exact hall pt t h

theorem eq_opOf_of_untypedOp {op : BitVec 8} {c : Command} (h : untypedOp op = some c) : op = opOf c ∧ ptOf c = 0 := by
  have hall : ∀ op : BitVec 8, ∀ c ∈ untypedOp op, op = opOf c ∧ ptOf c = 0 := by decide
  exact hall op c h

/-- A word that decodes has the fields of the command: `RSV` 0, and the command's `PT` and `OP` (R52, R59). -/
theorem fields_of_decodeWord {w : CmdWord} {c : Command} (h : decodeWord w = some c) :
    rsvField w = 0 ∧ ptField w = ptOf c ∧ opField w = opOf c := by
  rw [decodeWord] at h
  split_ifs at h with hrsv hupdate hencode hpt
  · obtain ⟨t, ht, rfl⟩ := Option.map_eq_some_iff.mp h
    exact ⟨not_not.mp hrsv, eq_primCode_of_primOfCode ht, hupdate⟩
  · obtain ⟨t, ht, rfl⟩ := Option.map_eq_some_iff.mp h
    exact ⟨not_not.mp hrsv, eq_primCode_of_primOfCode ht, hencode⟩
  · obtain ⟨hop, hzero⟩ := eq_opOf_of_untypedOp h
    exact ⟨not_not.mp hrsv, (not_not.mp hpt).trans hzero.symm, hop⟩

/-- A word is its three fields (R52). -/
theorem append_fields (w : CmdWord) : rsvField w ++ ptField w ++ opField w = w := by
  refine BitVec.eq_of_toNat_eq ?_
  rw [BitVec.toNat_append, BitVec.toNat_append, ← Nat.shiftLeft_add_eq_or_of_lt (ptField w).isLt,
    ← Nat.shiftLeft_add_eq_or_of_lt (opField w).isLt, Nat.shiftLeft_eq, Nat.shiftLeft_eq, rsvField_toNat, ptField_toNat,
    opField_toNat]
  omega

/-- The only word that decodes to a command is the one that encodes it. -/
theorem decodeWord_eq_some_iff {w : CmdWord} {c : Command} : decodeWord w = some c ↔ w = encodeWord c := by
  refine ⟨fun h => ?_, fun h => h ▸ decodeWord_encodeWord c⟩
  obtain ⟨hrsv, hpt, hop⟩ := fields_of_decodeWord h
  rw [encodeWord, ← hrsv, ← hpt, ← hop, append_fields]

/-- Settles O1, by evaluating the decoder on the eight words. -/
theorem exampleWordsDecode : Obligations.ExampleWordsDecode := by
  unfold Obligations.ExampleWordsDecode
  decide

/-- The commands in the order of the opcode table (R53, R59). -/
def tableCommands : List Command :=
  [.create, .reset, .dispose, .updateBytes, .update .bool, .update .byte, .update .char, .update .short, .update .int,
    .update .long, .update .float, .update .double, .digest, .oneshot, .mix, .finalize, .encode .bool, .encode .byte,
    .encode .char, .encode .short, .encode .int, .encode .long, .encode .float, .encode .double]

theorem mem_tableCommands (c : Command) : c ∈ tableCommands := by
  cases c with
  | update t | encode t => cases t <;> decide
  | create | reset | dispose | updateBytes | digest | oneshot | mix | finalize => decide

/-- The rows of the table are each command with its word. -/
theorem mem_rows_iff {w : CmdWord} {c : Command} :
    (w, c) ∈ tableCommands.map (fun c => (Laws.TableWord.wordOf c, c)) ↔ w = Laws.TableWord.wordOf c := by
  simp [mem_tableCommands, eq_comm]

/-- Settles O2: a command's only word is its encoding, which is the word of its row. -/
theorem exactlyTheTableWordsDecode : Obligations.ExactlyTheTableWordsDecode := by
  unfold Obligations.ExactlyTheTableWordsDecode
  intro w c
  rw [decodeWord_eq_some_iff, Laws.TableWord.encodeWord_eq]
  exact mem_rows_iff.symm

/-! ## The operand record -/

theorem le_resCap_of_lt_two_pow_tlBits {v : Variant} {n : Nat} (h : n < 2 ^ v.tlBits) : n ≤ v.resCap := by
  have hcap : 2 ^ v.tlBits = v.resCap + 1 := by cases v <;> rfl
  omega

/-- A record read whole is the record of the command it was read as, and that command is well-formed. -/
theorem operandBits_of_readOperands {v : Variant} {c : Command} {bs : List Bool} {i : Instr}
    (h : readOperands v c bs = some (i, [])) : i.command = c ∧ operandBits i = bs ∧ WellFormed v i = true := by
  cases c with
  | create | reset =>
    obtain ⟨x, rfl, rfl⟩ := readOne_eq_some h
    exact ⟨rfl, rfl, decide_eq_true rfl⟩
  | dispose | digest =>
    cases h
    exact ⟨rfl, rfl, rfl⟩
  | update t | encode t =>
    cases t <;>
    · obtain ⟨x, rfl, rfl⟩ := readOne_eq_some h
      exact ⟨rfl, rfl, rfl⟩
  | updateBytes =>
    obtain ⟨⟨data, rest⟩, hd, he⟩ := Option.map_eq_some_iff.mp h
    cases he
    obtain ⟨rfl, hl⟩ := readSized_eq_some hd
    exact ⟨rfl, (List.append_nil _).symm, decide_eq_true hl⟩
  | oneshot =>
    rw [readOperands] at h
    split at h
    case h_1 => cases h
    case h_2 seed r hs =>
      obtain ⟨⟨data, rest⟩, hd, he⟩ := Option.map_eq_some_iff.mp h
      cases he
      obtain ⟨rfl, hl⟩ := readSized_eq_some hd
      refine ⟨rfl, ?_, Bool.and_eq_true_iff.mpr ⟨decide_eq_true rfl, decide_eq_true hl⟩⟩
      rw [readField_eq_some hs, List.append_nil, operandBits]
  | mix =>
    rw [readOperands] at h
    split at h
    case h_1 => cases h
    case h_2 a1 a2 a3 a4 r ha =>
      obtain ⟨⟨blk, rest⟩, hb, he⟩ := Option.map_eq_some_iff.mp h
      cases he
      obtain ⟨rfl, hl⟩ := readBytes_eq_some hb
      refine ⟨rfl, ?_, Bool.and_eq_true_iff.mpr ⟨decide_eq_true rfl, decide_eq_true hl⟩⟩
      rw [readLanes_eq_some ha, List.append_nil, operandBits]
  | finalize =>
    rw [readOperands] at h
    split at h
    case h_1 => cases h
    case h_2 a1 a2 a3 a4 r1 ha =>
      split at h
      case h_1 => cases h
      case h_2 tot r2 ht =>
        split at h
        case h_1 => cases h
        case h_2 tail r3 hd =>
          obtain ⟨⟨seed, rest⟩, hs, he⟩ := Option.map_eq_some_iff.mp h
          cases he
          obtain ⟨rfl, hl⟩ := readSized_eq_some hd
          refine ⟨rfl, ?_, Bool.and_eq_true_iff.mpr
            ⟨decide_eq_true rfl, decide_eq_true (le_resCap_of_lt_two_pow_tlBits hl)⟩⟩
          rw [readLanes_eq_some ha, readField_eq_some ht, readField_eq_some hs, List.append_nil, operandBits]

/-- A decoded transaction is its command's, and the command is well-formed. -/
theorem encode_of_decode {v : Variant} {w : CmdWord} {record : List Bool} {i : Instr} (h : decode v w record = .ok i) :
    encode i = (w, record) ∧ WellFormed v i = true := by
  obtain ⟨c, hc, hr⟩ := decode_eq_ok h
  obtain ⟨rfl, rfl, hw⟩ := operandBits_of_readOperands hr
  exact ⟨by rw [encode, decodeWord_eq_some_iff.mp hc], hw⟩

/-- Settles O3: the word decodes to its command, and each field of the record reads back what was written there. -/
theorem decodeOfEncodeIsTheCommand : Obligations.DecodeOfEncodeIsTheCommand := by
  unfold Obligations.DecodeOfEncodeIsTheCommand
  exact fun _ _ => decode_encode

/-- Settles O4: the word can only be its command's encoding, and the fields read from the record, with nothing left
over, are the record. -/
theorem encodeOfDecodeIsTheTransaction : Obligations.EncodeOfDecodeIsTheTransaction := by
  unfold Obligations.EncodeOfDecodeIsTheTransaction
  exact fun _ _ _ _ => encode_of_decode

theorem lanesBits_length {n : Nat} (a1 a2 a3 a4 : BitVec n) : (lanesBits a1 a2 a3 a4).length = 4 * n := by
  simp only [lanesBits, List.length_append, fieldBits_length]
  omega

theorem sizedBits_length (n : Nat) (data : List Byte) : (sizedBits n data).length = n + 8 * data.length := by
  rw [sizedBits, List.length_append, fieldBits_length, bytesBits_length]

/-- Settles O5: the record is the one its command is written with, whose length is the sum of its fields' widths. -/
theorem operandRecordLengthFollowsTheCommand : Obligations.OperandRecordLengthFollowsTheCommand := by
  unfold Obligations.OperandRecordLengthFollowsTheCommand
  intro v w record i h
  obtain ⟨henc, hw⟩ := encode_of_decode h
  obtain rfl : operandBits i = record := congrArg Prod.snd henc
  cases i with
  | create w seed | reset w seed =>
    obtain rfl := of_decide_eq_true hw
    exact fieldBits_length seed
  | dispose | digest => rfl
  | updateBytes data => exact sizedBits_length 64 data
  | oneshot w seed data =>
    obtain rfl := of_decide_eq_true (Bool.and_eq_true_iff.mp hw).1
    simp only [operandBits, List.length_append, fieldBits_length, sizedBits_length, Nat.add_assoc]
  | mix w a1 a2 a3 a4 blk =>
    obtain ⟨hv, hf⟩ := Bool.and_eq_true_iff.mp hw
    obtain rfl := of_decide_eq_true hv
    simp only [operandBits, List.length_append, lanesBits_length, bytesBits_length, of_decide_eq_true hf]
  | finalize w a1 a2 a3 a4 tot tail seed =>
    obtain rfl := of_decide_eq_true (Bool.and_eq_true_iff.mp hw).1
    simp only [operandBits, List.length_append, lanesBits_length, sizedBits_length, fieldBits_length, Nat.add_assoc]
  | updateBool val | updateByte val | updateChar val | updateShort val | updateInt val | updateLong val
  | updateFloat val | updateDouble val | encodeBool val | encodeByte val | encodeChar val | encodeShort val
  | encodeInt val | encodeLong val | encodeFloat val | encodeDouble val => exact fieldBits_length val

end Sys2Proof
end

section
/-! PROOFS. Streams: absorbing in parts is absorbing the whole, the elements an instance has are those of the bytes it
has absorbed (R21, R36, R94, R100), and the paths that absorb the same bytes (R101, R104, R123, R142). -/

namespace Sys2Proof.Machine

open Sys2Proof

/-! ## Whole blocks and what is after them (R36) -/

theorem fullBlocks_length (v : Variant) (s : List Byte) : (fullBlocks v s).length = s.length / v.blockBytes := by
  rw [fullBlocks, List.length_map, List.length_range]

theorem afterBlocks_length (v : Variant) (s : List Byte) : (afterBlocks v s).length = s.length % v.blockBytes := by
  have := Nat.div_add_mod s.length v.blockBytes
  rw [afterBlocks, List.length_drop]
  omega

theorem length_of_mem_fullBlocks {v : Variant} {s b : List Byte} (h : b ∈ fullBlocks v s) :
    b.length = v.blockBytes := by
  obtain ⟨k, hk, rfl⟩ := List.mem_map.mp h
  have hin : v.blockBytes * k + v.blockBytes ≤ s.length :=
    calc v.blockBytes * (k + 1) ≤ v.blockBytes * (s.length / v.blockBytes) :=
          Nat.mul_le_mul_left _ (List.mem_range.mp hk)
      _ ≤ s.length := Nat.mul_div_le _ _
  rw [List.length_take, List.length_drop]
  omega

/-- The first `m` pieces of `n` bytes, joined, are the first `n * m` bytes. -/
theorem flatten_pieces_eq_take (n m : Nat) (s : List Byte) :
    ((List.range m).map fun k => (s.drop (n * k)).take n).flatten = s.take (n * m) := by
  induction m with
  | zero => simp
  | succ m ih =>
    rw [List.range_succ, List.map_append, List.flatten_append, ih, Nat.mul_succ, List.take_add]
    simp

theorem fullBlocks_flatten_append (v : Variant) (s : List Byte) : (fullBlocks v s).flatten ++ afterBlocks v s = s := by
  rw [fullBlocks, flatten_pieces_eq_take, afterBlocks, List.take_append_drop]

/-- Settles O28: the blocks are consecutive pieces of `B` bytes, and what is after them has `len mod B` bytes. -/
theorem blocksPartitionTheStream : Obligations.BlocksPartitionTheStream := by
  unfold Obligations.BlocksPartitionTheStream
  intro v s
  refine ⟨fullBlocks_length v s, fun b => length_of_mem_fullBlocks, ?_, fullBlocks_flatten_append v s⟩
  rw [afterBlocks_length]
  exact Nat.mod_lt _ (blockBytes_pos v)

/-! ## Absorbing in parts -/

/-- Absorbing two operands one after the other is absorbing them joined (R94). -/
theorem fed_fed (v : Variant) (h : Hasher v.width) (d e : List Byte) : (h.fed v d).fed v e = h.fed v (d ++ e) := by
  have hparts := eat_append (blockBytes_pos v) (f := mix v) h.lanes (h.res ++ d) e
  simp only [eat_mix_eq, List.append_assoc, Prod.mk.injEq] at hparts
  obtain ⟨hlanes, hres⟩ := hparts
  have htotal : BitVec.ofNat 64 ((BitVec.ofNat 64 (h.total.toNat + d.length)).toNat + e.length) =
      BitVec.ofNat 64 (h.total.toNat + (d ++ e).length) := by
    apply BitVec.eq_of_toNat_eq
    simp [Nat.add_assoc]
  simp only [Hasher.fed, hlanes, hres, htotal]

/-- A started hasher follows the empty stream. -/
theorem startHasher_eq_ofStream (v : Variant) (seed : v.Word) : startHasher v seed = Hasher.ofStream v seed [] := by
  have hlt : ([] : List Byte).length < v.blockBytes := blockBytes_pos v
  rw [startHasher, Hasher.ofStream, fullBlocks_of_lt hlt, afterBlocks_of_lt hlt]
  rfl

/-- The elements of a stream are those a started hasher has after absorbing it. -/
theorem ofStream_eq_fed (v : Variant) (seed : v.Word) (bytes : List Byte) :
    Hasher.ofStream v seed bytes = (startHasher v seed).fed v bytes := by
  simp [Hasher.ofStream, Hasher.fed, startHasher]

theorem ofStream_fed (v : Variant) (seed : v.Word) (bytes data : List Byte) :
    (Hasher.ofStream v seed bytes).fed v data = Hasher.ofStream v seed (bytes ++ data) := by
  rw [ofStream_eq_fed, fed_fed, ← ofStream_eq_fed]

/-! ## Sequences of UPDATE commands -/

/-- UPDATE commands on an instance that follows a stream all complete and lengthen the stream by their bytes. -/
theorem execAll_updates {v : Variant} {seed : v.Word} {bytes : List Byte} {s : State} {is : List Instr}
    (hs : s.here = { variant := v, hasher := Hasher.ofStream v seed bytes })
    (his : ∀ i ∈ is, i.command.updates = true ∧ WellFormed v i = true) :
    execAll is s = .next (s.answeredAll
      { variant := v, hasher := Hasher.ofStream v seed (bytes ++ is.flatMap Instr.absorbs) }
      (List.replicate is.length .done)) := by
  induction is generalizing s bytes with
  | nil => simp [execAll, ← hs]
  | cons i is ih =>
    obtain ⟨hi, hw⟩ := his i (by simp)
    have hexec := (exec_update_by_life hs hi (by rwa [hs])).1 rfl
    rw [ofStream_fed] at hexec
    rw [execAll_cons_of_next hexec, ih rfl fun j hj => his j (by simp [hj])]
    simp [List.replicate_succ]

/-- UPDATE commands after a command that started a hasher, CREATE or RESET, all complete and leave the elements of the
stream of their bytes. -/
theorem execAll_start_updates {v : Variant} {seed : v.Word} {s : State} {start : Instr} {is : List Instr}
    (hstart : exec start s = .next (s.answered { variant := v, hasher := startHasher v seed } .done))
    (his : ∀ i ∈ is, i.command.updates = true ∧ WellFormed v i = true) :
    execAll (start :: is) s = .next (s.answeredAll
      { variant := v, hasher := Hasher.ofStream v seed (is.flatMap Instr.absorbs) }
      (List.replicate (is.length + 1) .done)) := by
  rw [execAll_cons_of_next hstart, startHasher_eq_ofStream, execAll_updates rfl his]
  simp [List.replicate_succ]

/-- Settles O36: CREATE starts the empty stream, and each UPDATE lengthens it by its bytes. -/
theorem streamedStateIsThatOfItsBytes : Obligations.StreamedStateIsThatOfItsBytes := by
  unfold Obligations.StreamedStateIsThatOfItsBytes
  intro v h s seed is hs hl his
  exact ⟨_, execAll_start_updates (exec_create_of_destroyed hs hl seed) his, rfl, rfl, rfl, rfl⟩

/-- After a command that started a hasher, UPDATE.BYTES of chunks whose join one operand can carry leaves the elements
of that join. -/
theorem execAll_start_chunks {v : Variant} {seed : v.Word} {s : State} {start : Instr} {chunks : List (List Byte)}
    (hstart : exec start s = .next (s.answered { variant := v, hasher := startHasher v seed } .done))
    (hlen : chunks.flatten.length < 2 ^ 64) :
    execAll (start :: chunks.map .updateBytes) s = .next (s.answeredAll
      { variant := v, hasher := Hasher.ofStream v seed chunks.flatten } (List.replicate (chunks.length + 1) .done)) := by
  have hbytes : (chunks.map Instr.updateBytes).flatMap Instr.absorbs = chunks.flatten := by
    simp [List.flatMap_def, Function.comp_def, Instr.absorbs]
  rw [execAll_start_updates hstart, hbytes, List.length_map]
  intro i hi
  obtain ⟨chunk, hc, rfl⟩ := List.mem_map.mp hi
  exact ⟨rfl, decide_eq_true ((List.sublist_flatten_of_mem hc).length_le.trans_lt hlen)⟩

/-- The case of one operand. -/
theorem execAll_start_updateBytes {v : Variant} {seed : v.Word} {s : State} {start : Instr} {data : List Byte}
    (hstart : exec start s = .next (s.answered { variant := v, hasher := startHasher v seed } .done))
    (hd : data.length < 2 ^ 64) :
    execAll [start, .updateBytes data] s =
      .next (s.answeredAll { variant := v, hasher := Hasher.ofStream v seed data } [.done, .done]) := by
  have hone : [data].flatten = data := List.flatten_singleton
  have hchunks := execAll_start_chunks (chunks := [data]) hstart (hone.symm ▸ hd)
  rwa [hone] at hchunks

/-- Settles O37: the chunks and their join are one stream, so the same elements and the same digest. -/
theorem splitInvariance : Obligations.SplitInvariance := by
  unfold Obligations.SplitInvariance
  intro v h s seed chunks hs hl hlen
  have hcreate := exec_create_of_destroyed hs hl seed
  refine ⟨_, _, _, _, execAll_start_chunks hcreate hlen, execAll_start_updateBytes hcreate hlen, rfl,
    exec_digest_of_active rfl, exec_digest_of_active rfl, ?_⟩
  simp [State.answered, State.answeredAll]

/-- Settles O38: RESET and CREATE leave the same instance and give the same response, and all that comes after depends
on that instance alone. -/
theorem resetLeavesNoResidue : Obligations.ResetLeavesNoResidue := by
  unfold Obligations.ResetLeavesNoResidue
  intro v g h s t seed is s' hs ha ht hl hrun
  rw [execAll_cons_of_next (exec_reset_of_active hs ha seed)] at hrun
  obtain ⟨b, rs, -, hrs⟩ := execAll_answers hrun
  have hreset := hrs _ rfl
  rw [answered_answeredAll] at hreset
  obtain rfl : s.answeredAll b (.done :: rs) = s' := Host.Outcome.next.inj (hreset.symm.trans hrun)
  refine ⟨t.answeredAll b (.done :: rs), .done :: rs, ?_, rfl, rfl, rfl⟩
  rw [execAll_cons_of_next (exec_create_of_destroyed ht hl seed), hrs (t.answered _ .done) rfl, answered_answeredAll]

/-! ## UPDATE.BYTES and the other commands -/

/-- A primitive value has at most 8 bytes. -/
theorem absorbs_length_lt {v : Variant} {i : Instr} (hw : WellFormed v i = true) : i.absorbs.length < 2 ^ 64 := by
  cases i with
  | updateBytes data => exact of_decide_eq_true hw
  | updateChar | updateShort | updateInt | updateLong | updateFloat | updateDouble => simp [Instr.absorbs, bytesOf]
  | create | reset | dispose | updateBool | updateByte | digest | oneshot | mix | finalize | encodeBool | encodeByte
  | encodeChar | encodeShort | encodeInt | encodeLong | encodeFloat | encodeDouble => simp [Instr.absorbs]

/-- Settles O31: both perform the shared effect of every UPDATE on the same bytes. -/
theorem updateOfAPrimitiveIsUpdateOfItsBytes : Obligations.UpdateOfAPrimitiveIsUpdateOfItsBytes := by
  unfold Obligations.UpdateOfAPrimitiveIsUpdateOfItsBytes
  intro s i hi hw
  rw [exec_eq_update_absorbs hi hw, exec_updateBytes_of_fits (absorbs_length_lt hw)]

/-- A sequence of one block and fewer than `B` bytes has that block only. -/
theorem blocks_of_one_block {v : Variant} {s : List Byte} (hle : v.blockBytes ≤ s.length)
    (hlt : s.length < 2 * v.blockBytes) :
    fullBlocks v s = [s.take v.blockBytes] ∧ afterBlocks v s = s.drop v.blockBytes := by
  have hone : s.length / v.blockBytes = 1 := Nat.div_eq_of_lt_le (by omega) (by omega)
  rw [fullBlocks, afterBlocks, hone, Nat.mul_one]
  exact ⟨by simp, rfl⟩

/-- Settles O32: `RES` and the operand joined have no whole block in the first case, and one in the second. -/
theorem shortInputStaysInTheResidual : Obligations.ShortInputStaysInTheResidual := by
  unfold Obligations.ShortInputStaysInTheResidual
  intro v h s data hs ha hd hr
  have hexec : exec (.updateBytes data) s = .next (s.answered { variant := v, hasher := h.fed v data } .done) := by
    rw [exec_updateBytes_of_fits hd, update_of_active hs ha]
  have hlen : (h.res ++ data).length = h.res.length + data.length := List.length_append
  refine ⟨fun hlt => ⟨h.fed v data, hexec, ?_, ?_⟩, fun hle hlt => ⟨h.fed v data, hexec, ?_, ?_⟩⟩
  · rw [Hasher.fed, fullBlocks_of_lt (by omega), List.foldl_nil]
  · rw [Hasher.fed, afterBlocks_of_lt (by omega)]
  · rw [Hasher.fed, (blocks_of_one_block (by omega) (by omega)).1, List.take_append, List.take_of_length_le hr.le]
    rfl
  · rw [Hasher.fed, (blocks_of_one_block (by omega) (by omega)).2, List.drop_append, List.drop_of_length_le hr.le]
    rfl

/-- DIGEST of an instance that follows a stream answers `Finalize` of the stream's blocks and what is after them. -/
theorem exec_digest_of_stream {v : Variant} {seed : v.Word} {bytes : List Byte} {s : State}
    (hs : s.here = { variant := v, hasher := Hasher.ofStream v seed bytes }) :
    exec .digest s = .next (s.answered s.here (.doneWith (.digest v
      (finalizeDigest v ((fullBlocks v bytes).foldl (mix v) (initLanes v seed)) (BitVec.ofNat 64 bytes.length)
        (afterBlocks v bytes) seed)))) := by
  rw [exec_digest_of_active (by rw [hs]; rfl), hs]
  rfl

/-- DIGEST answers one and the same response in every state that addresses the instance `c`, and leaves `c` as it was.
-/
theorem exec_digest_answers_alike (c : Block) :
    ∃ r, ∀ s : State, s.here = c → exec .digest s = .next (s.answered c r) := by
  cases hl : c.hasher.life with
  | active => exact ⟨.doneWith c.digest, fun s hs => by subst hs; exact exec_digest_of_active hl⟩
  | destroyed => exact ⟨.failed .invalidState, fun s hs => by subst hs; exact exec_digest_of_destroyed hl⟩

/-- Settles O34: DIGEST leaves the instance as it was, so a second one meets what the first did; CREATE leaves the empty
stream. -/
theorem digestIsIdempotent : Obligations.DigestIsIdempotent := by
  unfold Obligations.DigestIsIdempotent
  intro v h s seed hs
  constructor
  · obtain ⟨r, hr⟩ := exec_digest_answers_alike s.here
    refine ⟨r, ?_⟩
    rw [execAll_cons_of_next (hr s rfl), execAll_cons_of_next (hr (s.answered s.here r) rfl)]
    rfl
  · intro hl
    refine ⟨_, exec_create_of_destroyed hs hl seed, ?_⟩
    rw [exec_digest_of_active rfl]
    rfl

/-- Settles O41: both paths finalize the same blocks and remainder, those of the whole operand. -/
theorem oneShotEqualsStreaming : Obligations.OneShotEqualsStreaming := by
  unfold Obligations.OneShotEqualsStreaming
  intro v h s seed data hs hd
  have hpath {start : Instr}
      (hstart : exec start s = .next (s.answered { variant := v, hasher := startHasher v seed } .done)) :
      ∃ u, execAll [start, .updateBytes data] s = .next u ∧
        exec .digest u = .next (u.answered u.here (.doneWith (.digest v (oneShotDigest v seed data)))) := by
    refine ⟨_, execAll_start_updateBytes hstart hd, ?_⟩
    rw [exec_digest_of_stream rfl, oneShotDigest_eq_finalizeDigest]
  exact ⟨oneShotDigest v seed data, exec_oneshot_of_here hs hd seed,
    fun hl => hpath (exec_create_of_destroyed hs hl seed), fun ha => hpath (exec_reset_of_active hs ha seed)⟩

end Sys2Proof.Machine
end

section
/-! PROOFS. Steps: when a step goes on and when it stops, what it leaves in the platform (R46, R51, R139), and what
every step keeps (R21, R22). -/

namespace Sys2Proof.Machine

open Sys2Proof

/-! ## Presenting a transaction -/

/-- The state in which `c`, the instance at the transaction's port, is addressed and the transaction is taken. -/
def State.addressing (s : State) (x : Transaction) (rest : List Transaction) (c : Block) : State where
  before := s.instances.take x.port
  here := c
  after := s.instances.drop (x.port + 1)
  pending := rest
  responses := s.responses

/-- `s` after the instance at the transaction's port has become `b` and has given one response, the transaction taken;
everything else as it was. -/
def State.answeredAt (s : State) (x : Transaction) (rest : List Transaction) (b : Block) (r : Response) : State where
  before := s.instances.take x.port
  here := b
  after := s.instances.drop (x.port + 1)
  pending := rest
  responses := s.responses ++ [{ port := x.port, response := r }]

section Present

variable {s : State} {x : Transaction} {rest : List Transaction} {c : Block}

theorem present_of_getElem? (hc : s.instances[x.port]? = some c) : s.present x rest = some (s.addressing x rest c) := by
  obtain ⟨hx, rfl⟩ := List.getElem?_eq_some_iff.mp hc
  rw [present_of_port_lt rest hx, State.addressing]

theorem port_lt_of_getElem? (hc : s.instances[x.port]? = some c) : x.port < s.instances.length :=
  (List.getElem?_eq_some_iff.mp hc).1

/-- An answer at the instance addressed is an answer at the transaction's port. -/
theorem answered_addressing (hc : s.instances[x.port]? = some c) (b : Block) (r : Response) :
    (s.addressing x rest c).answered b r = s.answeredAt x rest b r := by
  have hport : (s.instances.take x.port).length = x.port := List.length_take_of_le (port_lt_of_getElem? hc).le
  simp [State.answered, State.addressing, State.answeredAt, hport]

/-- Of the instances, only the one at the transaction's port is replaced. -/
theorem instances_answeredAt (hc : s.instances[x.port]? = some c) (b : Block) (r : Response) :
    (s.answeredAt x rest b r).instances = s.instances.set x.port b := by
  rw [List.set_eq_take_append_cons_drop, if_pos (port_lt_of_getElem? hc)]
  rfl

/-! ## What a step does, by the instance at the port -/

theorem step_of_ok (hp : s.pending = x :: rest) (hc : s.instances[x.port]? = some c) {i : Instr}
    (hd : decode c.variant x.word x.record = .ok i) : step s = exec i (s.addressing x rest c) := by
  have hhere : (s.addressing x rest c).decodeHere x = .ok i := hd
  simp only [step, hp, present_of_getElem? hc, hhere]

theorem step_of_illegal (hp : s.pending = x :: rest) (hc : s.instances[x.port]? = some c)
    (hd : decode c.variant x.word x.record = .error .illegalCommand) :
    step s = .next (s.answeredAt x rest c (.failed .illegalCommand)) := by
  have hhere : (s.addressing x rest c).decodeHere x = .error .illegalCommand := hd
  simp only [step, hp, present_of_getElem? hc, hhere, raise_eq_answered, ← answered_addressing hc]
  rfl

theorem step_of_malformed (hp : s.pending = x :: rest) (hc : s.instances[x.port]? = some c)
    (hd : decode c.variant x.word x.record = .error .malformedRecord) : step s = .refused .malformedRecord := by
  have hhere : (s.addressing x rest c).decodeHere x = .error .malformedRecord := hd
  simp only [step, hp, present_of_getElem? hc, hhere]

theorem step_of_no_port (hp : s.pending = x :: rest) (hx : s.instances.length ≤ x.port) :
    step s = .fault .noSuchPort := by
  have hnone : s.instances[x.port]? = none := List.getElem?_eq_none hx
  simp only [step, hp, State.present, State.select, hnone]

end Present

/-! ## What an instance may become and how it may answer -/

/-- What a transaction may make of the instance it is presented to. -/
inductive Block.Becomes (c : Block) : Block → Prop
  /-- No element written. -/
  | kept : c.Becomes c
  /-- CREATE or RESET performed. -/
  | started (seed : c.variant.Word) : c.Becomes { variant := c.variant, hasher := startHasher c.variant seed }
  /-- DISPOSE performed. -/
  | disposed : c.Becomes c.disposed
  /-- UPDATE performed. -/
  | fed (data : List Byte) (ha : c.hasher.life = .active) : c.Becomes (c.absorb data)

/-- OK, or one of the two errors the block reports (R127 to R131). -/
def Response.Regular (r : Response) : Prop :=
  r.status = .ok ∨ r = .failed .invalidState ∨ r = .failed .illegalCommand

/-- The instance `c` answers the transaction with `r` and becomes `b`, whatever else the platform holds. -/
def Block.Answers (c : Block) (x : Transaction) (b : Block) (r : Response) : Prop :=
  ∀ (s : State) (rest : List Transaction), s.pending = x :: rest → s.instances[x.port]? = some c →
    step s = .next (s.answeredAt x rest b r)

theorem Ends.becomes {i : Instr} {s t : State} (h : Ends i s t) :
    ∃ b r, t = s.answered b r ∧ s.here.Becomes b ∧ r.Regular := by
  cases h with
  | failed => exact ⟨_, _, rfl, .kept, .inr (.inl rfl)⟩
  | result => exact ⟨_, _, rfl, .kept, .inl rfl⟩
  | started seed => exact ⟨_, _, rfl, .started seed, .inl rfl⟩
  | disposed => exact ⟨_, _, rfl, .disposed, .inl rfl⟩
  | fed data _ ha => exact ⟨_, _, rfl, .fed data ha, .inl rfl⟩

theorem answered_inj {s : State} {b c : Block} {r q : Response} (h : s.answered b r = s.answered c q) :
    b = c ∧ r = q := by
  simpa [State.answered] using h

/-- The platform of one instance and nothing else, in which to read off what a command makes of that instance. -/
def Block.alone (c : Block) : State where
  before := []
  here := c
  after := []
  pending := []
  responses := []

/-- A transaction that decodes to a command is answered by the instance alone. -/
theorem answers_of_ok {c : Block} {x : Transaction} {i : Instr} (hd : decode c.variant x.word x.record = .ok i) :
    ∃ b r, c.Answers x b r ∧ c.Becomes b ∧ r.Regular := by
  obtain ⟨b, r, hexec⟩ := exec_answers (encode_of_decode hd).2
  obtain ⟨b', r', heq, hb, hr⟩ := (exec_ends (hexec c.alone rfl)).becomes
  obtain ⟨rfl, rfl⟩ := answered_inj heq
  refine ⟨b, r, fun s rest hp hc => ?_, hb, hr⟩
  rw [step_of_ok hp hc hd, hexec _ rfl, answered_addressing hc]

/-- A transaction that is not a malformed record is answered by the instance at its port alone. -/
theorem answers_or_malformed (c : Block) (x : Transaction) :
    decode c.variant x.word x.record = .error .malformedRecord ∨
      ∃ b r, c.Answers x b r ∧ c.Becomes b ∧ r.Regular := by
  match hd : decode c.variant x.word x.record with
  | .ok i => exact .inr (answers_of_ok hd)
  | .error .malformedRecord => exact .inl rfl
  | .error .illegalCommand =>
    exact .inr ⟨c, .failed .illegalCommand, fun _ _ hp hc => step_of_illegal hp hc hd, .kept, .inr (.inr rfl)⟩

/-- Every step on a transaction: a fault without an instance at the port, a refusal of a malformed record, or an
answer. -/
theorem step_on_transaction {s : State} {x : Transaction} {rest : List Transaction} (hp : s.pending = x :: rest) :
    (s.instances.length ≤ x.port ∧ step s = .fault .noSuchPort) ∨
      ∃ c, s.instances[x.port]? = some c ∧
        ((decode c.variant x.word x.record = .error .malformedRecord ∧ step s = .refused .malformedRecord) ∨
          ∃ b r, c.Answers x b r ∧ c.Becomes b ∧ r.Regular) := by
  cases hc : s.instances[x.port]? with
  | none =>
    have hx := List.getElem?_eq_none_iff.mp hc
    exact .inl ⟨hx, step_of_no_port hp hx⟩
  | some c =>
    refine .inr ⟨c, rfl, ?_⟩
    rcases answers_or_malformed c x with hd | hanswers
    · exact .inl ⟨hd, step_of_malformed hp hc hd⟩
    · exact .inr hanswers

/-- A step that goes on and takes a transaction is the answer of the instance at its port. -/
theorem step_takes {s t : State} {x : Transaction} {rest : List Transaction} (hp : s.pending = x :: rest)
    (h : step s = .next t) :
    ∃ c b r, s.instances[x.port]? = some c ∧ c.Answers x b r ∧ c.Becomes b ∧ r.Regular ∧
      t = s.answeredAt x rest b r := by
  rcases step_on_transaction hp with ⟨-, hf⟩ | ⟨c, hc, ⟨-, hr⟩ | ⟨b, r, hanswers, hb, hreg⟩⟩
  · rw [hf] at h
    cases h
  · rw [hr] at h
    cases h
  · exact ⟨c, b, r, hc, hanswers, hb, hreg, Host.Outcome.next.inj (h.symm.trans (hanswers s rest hp hc))⟩

/-! ## Steps and the transactions presented -/

theorem step_of_no_pending {s : State} (hp : s.pending = []) : step s = .next s := by
  simp only [step, hp]

/-- Settles O7: the port's instance is addressed, and decodes the transaction. -/
theorem stepPerformsTheDecodedCommand : Obligations.StepPerformsTheDecodedCommand := by
  unfold Obligations.StepPerformsTheDecodedCommand
  intro s x rest c i hp hc hd
  exact step_of_ok hp hc hd

/-- Settles O8: the step of a state that has no transaction to take. -/
theorem stepWaitsForACommand : Obligations.StepWaitsForACommand := by
  unfold Obligations.StepWaitsForACommand
  exact fun _ => step_of_no_pending

/-- A step goes on, or stops for one of the two reasons of log 4. -/
theorem step_goes_on_or_stops (s : State) :
    (∃ t, step s = .next t) ∨
      (step s = .fault .noSuchPort ∧ ∃ x rest, s.pending = x :: rest ∧ s.instances.length ≤ x.port) ∨
      (step s = .refused .malformedRecord ∧ ∃ x rest c, s.pending = x :: rest ∧ s.instances[x.port]? = some c ∧
        decode c.variant x.word x.record = .error .malformedRecord) := by
  cases hp : s.pending with
  | nil => exact .inl ⟨s, step_of_no_pending hp⟩
  | cons x rest =>
    rcases step_on_transaction hp with ⟨hx, hf⟩ | ⟨c, hc, ⟨hd, hr⟩ | ⟨b, r, hanswers, -⟩⟩
    · exact .inr (.inl ⟨hf, x, rest, rfl, hx⟩)
    · exact .inr (.inr ⟨hr, x, rest, c, rfl, hc, hd⟩)
    · exact .inl ⟨_, hanswers s rest hp hc⟩

/-- Settles O10: a step that does not go on stops for a missing port or for a malformed record, and on these it does
stop. -/
theorem stepStopsOnlyOnWhatNoHostPresents : Obligations.StepStopsOnlyOnWhatNoHostPresents := by
  unfold Obligations.StepStopsOnlyOnWhatNoHostPresents
  intro s
  refine ⟨⟨?_, ?_⟩, ?_, ?_⟩
  · rintro ⟨f, h⟩
    rcases step_goes_on_or_stops s with ⟨t, ht⟩ | ⟨-, hport⟩ | ⟨hr, -⟩
    · cases h.symm.trans ht
    · exact hport
    · cases h.symm.trans hr
  · rintro ⟨x, rest, hp, hx⟩
    exact ⟨_, step_of_no_port hp hx⟩
  · rintro ⟨r, h⟩
    rcases step_goes_on_or_stops s with ⟨t, ht⟩ | ⟨hf, -⟩ | ⟨-, hrecord⟩
    · cases h.symm.trans ht
    · cases h.symm.trans hf
    · exact hrecord
  · rintro ⟨x, rest, c, hp, hc, hd⟩
    exact ⟨_, step_of_malformed hp hc hd⟩

/-- A command with `W`-bit operands that do not fit the addressed instance is refused. -/
theorem performAs_refused {v : Variant} {fits : Bool} {s : State}
    (h : (decide (v = s.here.variant) && fits) = false) (k : Hasher v.width → State) :
    s.performAs v fits k = .refused .malformedRecord := by
  rcases performAs_cases v fits s k with ⟨rfl, hv, -⟩ | ⟨-, hrefused⟩
  · simp [← hv] at h
  · exact hrefused

theorem exec_of_not_wellFormed {i : Instr} {s : State} (hw : WellFormed s.here.variant i = false) :
    exec i s = .refused .malformedRecord := by
  cases i with
  | create v seed | reset v seed => exact performAs_refused ((Bool.and_true _).trans hw) _
  | updateBytes data => exact if_neg (Bool.eq_false_iff.mp hw)
  | oneshot | mix | finalize => exact performAs_refused hw _
  | dispose | digest | updateBool | updateByte | updateChar | updateShort | updateInt | updateLong | updateFloat
  | updateDouble | encodeBool | encodeByte | encodeChar | encodeShort | encodeInt | encodeLong | encodeFloat
  | encodeDouble => cases hw

/-- Settles O11: operands that fit let the command answer, and those that do not are refused whatever the command. -/
theorem commandStopsOnlyOnOperandsThatDoNotFit : Obligations.CommandStopsOnlyOnOperandsThatDoNotFit := by
  unfold Obligations.CommandStopsOnlyOnOperandsThatDoNotFit
  intro i s
  refine ⟨fun hw => ?_, exec_of_not_wellFormed⟩
  obtain ⟨b, r, hexec⟩ := exec_answers hw
  exact ⟨_, hexec s rfl⟩

/-- Settles O12: the response is OK, or one of the block's two errors, which carry no result. -/
theorem everyCommandIsAnsweredOnce : Obligations.EveryCommandIsAnsweredOnce := by
  unfold Obligations.EveryCommandIsAnsweredOnce
  intro s t x rest hp h
  obtain ⟨c, b, r, -, -, -, hreg, rfl⟩ := step_takes hp h
  refine ⟨rfl, r, rfl, ?_⟩
  rcases hreg with hok | rfl | rfl
  · simp [hok, Status.code]
  · exact ⟨.inr (.inl rfl), fun _ => rfl⟩
  · exact ⟨.inr (.inr rfl), fun _ => rfl⟩

/-! ## What every step keeps -/

theorem Block.Becomes.variant_eq {c b : Block} (h : c.Becomes b) : b.variant = c.variant := by
  cases h with
  | kept | started | disposed | fed => rfl

/-- Settles O51: the one instance a step replaces keeps its variant. -/
theorem stepKeepsVariants : Obligations.StepKeepsVariants := by
  unfold Obligations.StepKeepsVariants
  intro s t h
  cases hp : s.pending with
  | nil =>
    rw [step_of_no_pending hp] at h
    cases h
    rfl
  | cons x rest =>
    obtain ⟨c, b, r, hc, -, hb, -, rfl⟩ := step_takes hp h
    have hset : (s.instances.set x.port b).map Block.variant = s.instances.map Block.variant := by
      obtain ⟨hx, rfl⟩ := List.getElem?_eq_some_iff.mp hc
      rw [List.map_set, hb.variant_eq, ← List.getElem_map Block.variant (h := by simpa using hx), List.set_getElem_self]
    rw [← instances_answeredAt hc b r] at hset
    exact hset

/-- What holds of every instance and is kept by whatever a transaction may make of one is kept by every step. -/
theorem step_keeps {P : Block → Prop} (hP : ∀ c b : Block, c.Becomes b → P c → P b) {s t : State}
    (h : step s = .next t) (hs : ∀ b ∈ s.instances, P b) : ∀ b ∈ t.instances, P b := by
  cases hp : s.pending with
  | nil =>
    rw [step_of_no_pending hp] at h
    cases h
    exact hs
  | cons x rest =>
    obtain ⟨c, b, r, hc, -, hb, -, rfl⟩ := step_takes hp h
    rw [instances_answeredAt hc]
    intro d hd
    rcases List.mem_or_eq_of_mem_set hd with hold | rfl
    · exact hs d hold
    · exact hP c d hb (hs c (List.mem_of_getElem? hc))

theorem followsStream_of_becomes (c b : Block) (h : c.Becomes b) (hc : c.FollowsStream) : b.FollowsStream := by
  cases h with
  | kept => exact hc
  | started seed => exact fun _ => ⟨seed, [], startHasher_eq_ofStream c.variant seed⟩
  | disposed => exact fun ha => by cases ha
  | fed data ha =>
    obtain ⟨seed, bytes, hbytes⟩ := hc ha
    refine fun _ => ⟨seed, bytes ++ data, ?_⟩
    calc c.hasher.absorb c.variant data = (Hasher.ofStream c.variant seed bytes).fed c.variant data := by
          rw [absorb_eq_fed, hbytes]
      _ = Hasher.ofStream c.variant seed (bytes ++ data) := ofStream_fed ..

/-- Settles O46: a started hasher follows the empty stream, and an UPDATE lengthens the stream by its bytes. -/
theorem stepKeepsStreams : Obligations.StepKeepsStreams := by
  unfold Obligations.StepKeepsStreams
  exact fun s t hs h => step_keeps followsStream_of_becomes h hs

/-- The block size divides `2^64`, so counting modulo `2^64` keeps the count modulo the block size. -/
theorem mod_two_pow_64_mod_blockBytes (v : Variant) (n : Nat) : n % 2 ^ 64 % v.blockBytes = n % v.blockBytes := by
  have hdvd : v.blockBytes ∣ 2 ^ 64 := by cases v <;> decide
  exact Nat.mod_mod_of_dvd n hdvd

theorem fed_res_length {v : Variant} {h : Hasher v.width} (hfits : h.res.length = h.total.toNat % v.blockBytes)
    (data : List Byte) : (h.fed v data).res.length = (h.fed v data).total.toNat % v.blockBytes :=
  calc (afterBlocks v (h.res ++ data)).length = (h.res.length + data.length) % v.blockBytes := by
        rw [afterBlocks_length, List.length_append]
    _ = (h.total.toNat + data.length) % v.blockBytes := by rw [hfits, Nat.mod_add_mod]
    _ = (BitVec.ofNat 64 (h.total.toNat + data.length)).toNat % v.blockBytes := by
        rw [BitVec.toNat_ofNat, mod_two_pow_64_mod_blockBytes]

theorem residualFits_of_becomes (c b : Block) (h : c.Becomes b) (hc : c.ResidualFits) : b.ResidualFits := by
  cases h with
  | kept => exact hc
  | started seed => exact fun _ => (Nat.zero_mod _).symm
  | disposed => exact fun ha => by cases ha
  | fed data ha =>
    intro _
    have hfed : (c.absorb data).hasher = c.hasher.fed c.variant data := absorb_eq_fed ..
    rw [hfed]
    exact fed_res_length (hc ha) data

/-- Settles O48: `RES` and `TOTAL` start at nothing and grow by the same bytes, modulo the block size. -/
theorem stepKeepsResidualLength : Obligations.StepKeepsResidualLength := by
  unfold Obligations.StepKeepsResidualLength
  exact fun s t hs h => step_keeps residualFits_of_becomes h hs

/-! ## Different instances (R46) -/

/-- Settles O52: the step replaces the instance at the transaction's port and answers there. -/
theorem commandTouchesOnlyItsInstance : Obligations.CommandTouchesOnlyItsInstance := by
  unfold Obligations.CommandTouchesOnlyItsInstance
  intro s t x rest hp h q hq
  obtain ⟨c, b, r, hc, -, -, -, rfl⟩ := step_takes hp h
  constructor
  · calc (s.answeredAt x rest b r).instances[q]? = (s.instances.set x.port b)[q]? := by rw [instances_answeredAt hc]
      _ = s.instances[q]? := List.getElem?_set_ne hq.symm
  · simp [State.answeredAt, hq.symm]

/-- At each port, two replies given at different ports are the same in either order. -/
theorem filter_two_replies {m n : Nat} (hne : m ≠ n) (l : List Reply) (r q : Response) (p : Nat) :
    (l ++ [Reply.mk n q] ++ [Reply.mk m r]).filter (fun a => a.port == p) =
      (l ++ [Reply.mk m r] ++ [Reply.mk n q]).filter (fun a => a.port == p) := by
  by_cases hm : m = p
  · have hn : n ≠ p := fun h => hne (hm.trans h.symm)
    simp [hm, hn]
  · simp [List.filter_cons, hm]

/-- Settles O53: each instance answers as it would alone, so in either order both become and answer the same. -/
theorem commandsToDifferentInstancesCommute : Obligations.CommandsToDifferentInstancesCommute := by
  unfold Obligations.CommandsToDifferentInstancesCommute
  intro s s1 s2 x y rest hp hne h1 h2
  obtain ⟨c, b, r, hc, hx, -, -, rfl⟩ := step_takes hp h1
  obtain ⟨d, e, q, hd, hy, -, -, rfl⟩ := step_takes rfl h2
  have hd' : s.instances[y.port]? = some d := by
    rw [instances_answeredAt hc, List.getElem?_set_ne hne] at hd
    exact hd
  have hswap : step { s with pending := y :: x :: rest } = .next (s.answeredAt y (x :: rest) e q) :=
    hy { s with pending := y :: x :: rest } (x :: rest) rfl hd'
  have hc' : (s.answeredAt y (x :: rest) e q).instances[x.port]? = some c := by
    rw [instances_answeredAt hd', List.getElem?_set_ne hne.symm, hc]
  refine ⟨_, _, hswap, hx _ rest rfl hc', ?_, rfl, fun p => ?_⟩
  · calc ((s.answeredAt y (x :: rest) e q).answeredAt x rest b r).instances
        = (s.instances.set y.port e).set x.port b := by rw [instances_answeredAt hc', instances_answeredAt hd']
      _ = (s.instances.set x.port b).set y.port e := List.set_comm _ _ hne.symm
      _ = ((s.answeredAt x (y :: rest) b r).answeredAt y rest e q).instances := by
        rw [instances_answeredAt hd, instances_answeredAt hc]
  · exact filter_two_replies hne s.responses r q p

end Sys2Proof.Machine
end

section
/-! PROOFS. What a command does not read and what it does not write (R25, R29, R39, R72, R77, R81, R93), and the block
at power-on (R26, R144). -/

namespace Sys2Proof.Machine

open Sys2Proof

/-! ## What the datapath does not read -/

/-- A lane round reads its lane and the bytes of its own word. -/
theorem laneRound_laneWord_congr {v : Variant} {a b : v.Word} {x y : List Byte} (i : Nat) (ha : a = b)
    (hx : (x.drop (v.wordBytes * (i - 1))).take v.wordBytes = (y.drop (v.wordBytes * (i - 1))).take v.wordBytes) :
    laneRound v a (laneWord v x i) = laneRound v b (laneWord v y i) := by
  rw [ha, laneWord, laneWord, leWord, leWord, hx]

/-- Settles O19: lane `i` is rounded with word `i` alone. -/
theorem lanesAreMixedIndependently : Obligations.LanesAreMixedIndependently := by
  unfold Obligations.LanesAreMixedIndependently
  intro v a b x y
  exact ⟨fun ha hx => laneRound_laneWord_congr 1 ha hx,
    fun ha hx => laneRound_laneWord_congr 2 ha (by rwa [Nat.mul_one]),
    fun ha hx => laneRound_laneWord_congr 3 ha hx, fun ha hx => laneRound_laneWord_congr 4 ha hx⟩

/-- Below one block the start value comes from the seed, so the digest does not depend on the lanes (R77). -/
theorem finalizeDigest_of_lt {v : Variant} {tot : BitVec 64} (h : tot.toNat < v.blockBytes) (a b : Lanes v.width)
    (tail : List Byte) (seed : v.Word) : finalizeDigest v a tot tail seed = finalizeDigest v b tot tail seed := by
  have hstart (c : Lanes v.width) : startValue v c tot seed = seed + P5 v := if_neg (Nat.not_le.mpr h)
  rw [finalizeDigest, finalizeDigest, hstart a, hstart b]

/-- Settles O23: FINALIZE reads the lanes through the digest only. -/
theorem finalizeIgnoresLanesBelowOneBlock : Obligations.FinalizeIgnoresLanesBelowOneBlock := by
  unfold Obligations.FinalizeIgnoresLanesBelowOneBlock
  intro v s a1 a2 a3 a4 b1 b2 b3 b4 tot tail seed h
  rw [exec, exec, execFinalize, execFinalize, finalizeDigest_of_lt h ⟨a1, a2, a3, a4⟩ ⟨b1, b2, b3, b4⟩]

/-- XXH32 reads of a total only whether it reaches a block, and its low 32 bits (R77, R81). -/
theorem finalizeDigest_xxh32_congr {tot tot' : BitVec 64} (h : 16 ≤ tot.toNat) (h' : 16 ≤ tot'.toNat)
    (hlow : tot.toNat % 2 ^ 32 = tot'.toNat % 2 ^ 32) (a : Lanes 32) (tail : List Byte) (seed : BitVec 32) :
    finalizeDigest .xxh32 a tot tail seed = finalizeDigest .xxh32 a tot' tail seed := by
  have hstart : startValue .xxh32 a tot seed = startValue .xxh32 a tot' seed := (if_pos h).trans (if_pos h').symm
  have hfold : tot.setWidth Variant.xxh32.width = tot'.setWidth Variant.xxh32.width :=
    BitVec.eq_of_toNat_eq (by simpa only [BitVec.toNat_setWidth] using hlow)
  rw [finalizeDigest, finalizeDigest, hstart, foldLength, foldLength, hfold]

/-- Settles O24: FINALIZE reads the total through the digest only. -/
theorem xxh32FoldsTheLowTotalOnly : Obligations.Xxh32FoldsTheLowTotalOnly := by
  unfold Obligations.Xxh32FoldsTheLowTotalOnly
  intro s a1 a2 a3 a4 tot tot' tail seed h h' hlow
  rw [exec, exec, execFinalize, execFinalize, finalizeDigest_xxh32_congr h h' hlow]

/-- Settles O35: DIGEST reads the lanes through the digest only, and its total is below one block. -/
theorem digestHidesLanesBelowOneBlock : Obligations.DigestHidesLanesBelowOneBlock := by
  unfold Obligations.DigestHidesLanesBelowOneBlock
  intro v h a s hs ha hlt
  refine ⟨.doneWith s.here.digest, exec_digest_of_active (by rw [hs, ha]), ?_⟩
  rw [exec_digest_of_active ha, hs, Block.digest, Block.digest, finalizeDigest_of_lt hlt h.lanes a]
  rfl

/-! ## What a command reads and writes (R25) -/

/-- A stateless command gives one and the same result at every instance of a variant that it fits, and writes nothing.
-/
theorem exec_of_stateless {i : Instr} {v : Variant} (hi : i.command.stateless = true) (hw : WellFormed v i = true) :
    ∃ x : Result, ∀ s : State, s.here.variant = v → exec i s = .next (s.answered s.here (.doneWith x)) := by
  cases i with
  | oneshot | mix | finalize => exact ⟨_, fun s hs => performAs_complete_here (hs ▸ hw) rfl _⟩
  | encodeBool val | encodeByte val | encodeChar val | encodeShort val | encodeInt val | encodeLong val
  | encodeFloat val | encodeDouble val => exact ⟨.bytes _, fun s _ => rfl⟩
  | create | reset | dispose | updateBytes | updateBool | updateByte | updateChar | updateShort | updateInt
  | updateLong | updateFloat | updateDouble | digest => cases hi

/-- Settles O45: the result is fixed by the command and the variant, which the two instances share. -/
theorem statelessCommandsIgnoreTheState : Obligations.StatelessCommandsIgnoreTheState := by
  unfold Obligations.StatelessCommandsIgnoreTheState
  intro i s t hi hv hw
  obtain ⟨x, hx⟩ := exec_of_stateless hi hw
  exact ⟨x, hx s rfl, hx t hv.symm⟩

/-- Settles O44: of the ways a command can end, CREATE and RESET write every element, DISPOSE `LIFE`, UPDATE the lanes,
`RES` and `TOTAL`, and the others nothing. -/
theorem commandsWriteOnlyTheirElements : Obligations.CommandsWriteOnlyTheirElements := by
  unfold Obligations.CommandsWriteOnlyTheirElements
  intro i s t v h hs hexec
  obtain ⟨before, here, after, pending, responses⟩ := s
  subst hs
  cases exec_ends hexec with
  | failed | result => exact ⟨h, rfl, by simp⟩
  | started seed hc =>
    refine ⟨startHasher v seed, rfl, ?_⟩
    rcases hc with ⟨hc, -⟩ | ⟨hc, ha⟩
    · simp [hc, Command.stateless]
    · have hl : h.life = .active := ha
      simp [hc, hl, Command.stateless]
  | disposed hc =>
    refine ⟨{ h with life := .destroyed }, rfl, ?_⟩
    simp [hc, Command.stateless]
  | fed data hc ha =>
    refine ⟨h.absorb v data, rfl, ?_⟩
    simp [kinds_of_updates hc, hc, Hasher.absorb]

/-! ## Power-on -/

/-- Every instance of the platform at power-on is Destroyed (R26). -/
theorem destroyed_of_mem_reset {b : Block} (h : b ∈ State.reset.instances) : b.hasher.life = .destroyed := by
  have hall : ∀ b ∈ State.reset.instances, b.hasher.life = .destroyed := by decide
  exact hall b h

/-- Settles O47: no instance is Active. -/
theorem powerOnFollowsStreams : Obligations.PowerOnFollowsStreams := by
  unfold Obligations.PowerOnFollowsStreams
  intro b hb ha
  cases (destroyed_of_mem_reset hb).symm.trans ha

/-- Settles O49: the two instances are Destroyed, and with nothing pending the step waits. -/
theorem powerOnIsDestroyedAndWaiting : Obligations.PowerOnIsDestroyedAndWaiting := by
  unfold Obligations.PowerOnIsDestroyedAndWaiting
  refine ⟨fun b hb => ?_, rfl, rfl, step_of_no_pending rfl⟩
  have hl := destroyed_of_mem_reset hb
  exact ⟨hl, congrArg Life.bit hl⟩

/-- Settles O50: no instance is Active. -/
theorem powerOnResidualsFit : Obligations.PowerOnResidualsFit := by
  unfold Obligations.PowerOnResidualsFit
  intro b hb ha
  cases (destroyed_of_mem_reset hb).symm.trans ha

end Sys2Proof.Machine
end

section
/-! PROOFS. The assembler: every command has a line, every line of a well-formed command assembles to it, and numerals
that do not fit make no command (R62, log 12). -/

namespace Sys2Proof.Machine

open Sys2Proof

/-! ## Every value has a text -/

/-- The capital for a digit. -/
def digitChar (d : Nat) : Char := digitCapitals.getD d '0'

theorem isDigit_digitChar {base d : Nat} (hb : base ≤ 16) (hd : d < base) : IsDigit base (digitChar d) d := by
  have hall : ∀ d < 16, digitCapitals[d]? = some (digitChar d) := by decide
  exact ⟨hd, .inl (hall d (hd.trans_le hb))⟩

/-- Digits of a base, written in capitals, spell their number. -/
theorem spellsIn_digitChar {base : Nat} (hb : base ≤ 16) {ds : List Nat} (hne : ds ≠ []) (hds : ∀ d ∈ ds, d < base) :
    SpellsIn base (ds.map digitChar) (Nat.ofDigits base ds.reverse) := by
  refine ⟨by simpa using hne, ds, ?_, rfl⟩
  rw [List.forall₂_map_left_iff, List.forall₂_same]
  exact fun d hd => isDigit_digitChar hb (hds d hd)

theorem exists_spellsHex (x : Nat) : ∃ cs, SpellsHex cs x := by
  have hds : ∀ d ∈ 0 :: (Nat.digits 16 x).reverse, d < 16 := by
    intro d hd
    rcases List.mem_cons.mp hd with rfl | hd
    · decide
    · exact Nat.digits_lt_base (by decide) (List.mem_reverse.mp hd)
  have hvalue : Nat.ofDigits 16 (0 :: (Nat.digits 16 x).reverse).reverse = x := by
    simp [Nat.ofDigits_append, Nat.ofDigits_digits]
  refine ⟨_, _, rfl, hvalue ▸ spellsIn_digitChar (le_refl 16) (List.cons_ne_nil _ _) hds⟩

theorem exists_spellsNumeral (x : Nat) : ∃ cs, SpellsNumeral cs x :=
  (exists_spellsHex x).imp fun _ => .inl

theorem exists_spellsSigned {n : Nat} (val : BitVec n) : ∃ cs, SpellsSigned cs val :=
  (exists_spellsNumeral val.toNat).imp fun _ => .inl

theorem exists_spellsBool (val : BitVec 1) : ∃ cs, SpellsBool cs val :=
  (exists_spellsNumeral val.toNat).imp fun _ => .inl

/-- A byte is two hexadecimal digits. -/
theorem exists_pair (b : Byte) : ∃ c d, SpellsIn 16 [c, d] b.toNat := by
  have hb := b.isLt
  have hvalue : Nat.ofDigits 16 [b.toNat / 16, b.toNat % 16].reverse = b.toNat := by
    simp [Nat.ofDigits]
    omega
  refine ⟨_, _, hvalue ▸ spellsIn_digitChar (le_refl 16) (List.cons_ne_nil _ _) fun d hd => ?_⟩
  simp only [List.mem_cons, List.not_mem_nil, or_false] at hd
  omega

theorem exists_spellsPairs (data : List Byte) : ∃ cs, SpellsPairs cs data := by
  induction data with
  | nil => exact ⟨_, .none⟩
  | cons b data ih =>
    obtain ⟨c, d, hb⟩ := exists_pair b
    cases data with
    | nil => exact ⟨_, .last c d b hb⟩
    | cons b' data =>
      obtain ⟨cs, hcs⟩ := ih
      exact ⟨_, .more c d b hb 0 cs _ hcs (List.cons_ne_nil _ _)⟩

theorem exists_spellsBytes (data : List Byte) : ∃ cs, SpellsBytes cs data := by
  obtain ⟨ps, hps⟩ := exists_spellsPairs data
  exact ⟨_, .inl ⟨ps, rfl, hps⟩⟩

theorem exists_text_of_operand (i : Instr) : ∀ p ∈ i.lineOperands, ∃ t, p t := by
  cases i with
  | dispose | digest => simp [Instr.lineOperands]
  | create | reset | updateChar | encodeChar => simp [Instr.lineOperands, exists_spellsNumeral]
  | updateBytes => simp [Instr.lineOperands, exists_spellsBytes]
  | updateBool | encodeBool => simp [Instr.lineOperands, exists_spellsBool]
  | updateByte | updateShort | updateInt | updateLong | encodeByte | encodeShort | encodeInt | encodeLong =>
    simp [Instr.lineOperands, exists_spellsSigned]
  | updateFloat | updateDouble | encodeFloat | encodeDouble => simp [Instr.lineOperands, exists_spellsHex]
  | oneshot | mix | finalize => simp [Instr.lineOperands, exists_spellsNumeral, exists_spellsBytes]

theorem exists_texts {ps : List (List Char → Prop)} (h : ∀ p ∈ ps, ∃ t, p t) :
    ∃ texts, List.Forall₂ (fun p t => p t) ps texts := by
  induction ps with
  | nil => exact ⟨[], .nil⟩
  | cons p ps ih =>
    obtain ⟨t, ht⟩ := h p (by simp)
    obtain ⟨ts, hts⟩ := ih fun q hq => h q (by simp [hq])
    exact ⟨t :: ts, .cons ht hts⟩

theorem exists_commaSeparated (texts : List (List Char)) : ∃ cs, CommaSeparated texts cs := by
  induction texts with
  | nil => exact ⟨_, .none⟩
  | cons t ts ih =>
    obtain ⟨cs, hcs⟩ := ih
    cases ts with
    | nil => exact ⟨_, .last t⟩
    | cons u us => exact ⟨_, .more t 0 _ cs hcs (List.cons_ne_nil _ _)⟩

theorem exists_line (i : Instr) : ∃ line, i.IsLine line := by
  obtain ⟨texts, htexts⟩ := exists_texts (exists_text_of_operand i)
  obtain ⟨operands, hoperands⟩ := exists_commaSeparated texts
  exact ⟨_, texts, operands, [], 1, 0, htexts, hoperands, .inl rfl, fun _ => Nat.one_pos, rfl⟩

/-! ## A line's name -/

theorem commandNamed_commandName (c : Command) : commandNamed (commandName c).toList = some c := by
  cases c with
  | update t | encode t => cases t <;> decide +kernel
  | create | reset | dispose | updateBytes | digest | oneshot | mix | finalize => decide +kernel

theorem lineName_eq_commandName (i : Instr) : i.lineName = commandName i.command := by
  cases i <;> rfl

/-- A command's name is one word. -/
theorem commandName_plain (c : Command) :
    (commandName c).toList ≠ [] ∧ ∀ ch ∈ (commandName c).toList, IsPlain ch := by
  cases c with
  | update t | encode t => cases t <;> simp [commandName, PrimType.name, IsPlain]
  | create | reset | dispose | updateBytes | digest | oneshot | mix | finalize => simp [commandName, IsPlain]

/-! ## A line's operands -/

section Reads

variable {t : List Char}

theorem reads_numeral {n : Nat} {x : BitVec n} (h : SpellsNumeral t x.toNat) :
    Scans t [.word t] ∧ numeralField n (.word t) = some x :=
  ⟨scans_numeral h, by rw [numeralField_of_spells h, fitField_toNat]⟩

theorem reads_pattern {n : Nat} {x : BitVec n} (h : SpellsHex t x.toNat) :
    Scans t [.word t] ∧ patternField n (.word t) = some x :=
  ⟨scans_hex h, by rw [patternField_of_spells h, fitField_toNat]⟩

theorem reads_signed {n : Nat} {x : BitVec n} (h : SpellsSigned t x) :
    Scans t [.word t] ∧ signedField n (.word t) = some x :=
  ⟨scans_signed h, signedField_of_spells h⟩

theorem reads_bool {x : BitVec 1} (h : SpellsBool t x) : Scans t [.word t] ∧ boolField (.word t) = some x :=
  ⟨scans_bool h, boolField_of_spells h⟩

theorem fieldThenComma_numeral {n : Nat} {x : BitVec n} (h : SpellsNumeral t x.toNat) (ts : List Token) :
    fieldThenComma n (.word t :: .comma :: ts) = some (x, ts) := by
  rw [fieldThenComma, (reads_numeral h).2, Option.map_some]

end Reads

theorem lanesOperands_numerals {v : Variant} {a1 a2 a3 a4 : v.Word} {t1 t2 t3 t4 : List Char}
    (h1 : SpellsNumeral t1 a1.toNat) (h2 : SpellsNumeral t2 a2.toNat) (h3 : SpellsNumeral t3 a3.toNat)
    (h4 : SpellsNumeral t4 a4.toNat) (ts : List Token) :
    lanesOperands v (.word t1 :: .comma :: .word t2 :: .comma :: .word t3 :: .comma :: .word t4 :: .comma :: ts) =
      some ((a1, a2, a3, a4), ts) := by
  simp only [lanesOperands, fieldThenComma_numeral h1, fieldThenComma_numeral h2, fieldThenComma_numeral h3,
    fieldThenComma_numeral h4]

theorem lastBytes_of_bytesOperand {ws : List Token} {data : List Byte}
    (h : ∀ ts, bytesOperand (ws ++ ts) = some (data, ts)) : lastBytes ws = some data := by
  have hall := h []
  rw [List.append_nil] at hall
  rw [lastBytes, hall]

/-- The texts scan into tokens that read, with commas between them, as the command. -/
def ReadAs (v : Variant) (texts : List (List Char)) (i : Instr) : Prop :=
  ∃ tokens, List.Forall₂ Scans texts tokens ∧ commandOperands v i.command (commaTokens tokens) = some i

/-- A command with one operand that is a word. -/
theorem readAs_of_one_word {α : Type} {v : Variant} {i : Instr} {p : List Char → Prop} {read : Token → Option α}
    {f : α → Instr} {x : α} {texts : List (List Char)}
    (hcommand : ∀ ts, commandOperands v i.command ts = oneOperand read f ts) (hi : f x = i)
    (hp : ∀ {t}, p t → Scans t [.word t] ∧ read (.word t) = some x)
    (h : List.Forall₂ (fun p t => p t) [p] texts) : ReadAs v texts i := by
  obtain _ | ⟨ht, hnil⟩ := h
  cases hnil
  obtain ⟨hscan, hread⟩ := hp ht
  refine ⟨[[.word _]], .cons hscan .nil, ?_⟩
  rw [hcommand, commaTokens, oneOperand, hread, Option.map_some, hi]

/-- The operands' texts of a well-formed command read as the command. -/
theorem readAs_of_lineOperands {v : Variant} {i : Instr} {texts : List (List Char)} (hw : WellFormed v i = true)
    (h : List.Forall₂ (fun p t => p t) i.lineOperands texts) : ReadAs v texts i := by
  cases i with
  | dispose | digest =>
    cases h
    exact ⟨[], .nil, rfl⟩
  | create w seed | reset w seed =>
    obtain rfl := of_decide_eq_true hw
    exact readAs_of_one_word (fun _ => rfl) rfl reads_numeral h
  | updateChar | encodeChar => exact readAs_of_one_word (fun _ => rfl) rfl reads_numeral h
  | updateBool | encodeBool => exact readAs_of_one_word (fun _ => rfl) rfl reads_bool h
  | updateByte | updateShort | updateInt | updateLong | encodeByte | encodeShort | encodeInt | encodeLong =>
    exact readAs_of_one_word (fun _ => rfl) rfl reads_signed h
  | updateFloat | updateDouble | encodeFloat | encodeDouble =>
    exact readAs_of_one_word (fun _ => rfl) rfl reads_pattern h
  | updateBytes data =>
    obtain _ | ⟨hdata, hnil⟩ := h
    cases hnil
    obtain ⟨ws, hscan, hread⟩ := scans_bytes hdata
    refine ⟨[ws], .cons hscan .nil, ?_⟩
    rw [Instr.command, commandOperands, commaTokens, lastBytes_of_bytesOperand hread, Option.map_some]
  | oneshot w seed data =>
    obtain rfl := of_decide_eq_true (Bool.and_eq_true_iff.mp hw).1
    obtain _ | ⟨hseed, _ | ⟨hdata, hnil⟩⟩ := h
    cases hnil
    obtain ⟨ws, hscan, hread⟩ := scans_bytes hdata
    refine ⟨[[.word _], ws], .cons (scans_numeral hseed) (.cons hscan .nil), ?_⟩
    simp only [Instr.command, commandOperands, commaTokens, List.singleton_append, fieldThenComma_numeral hseed,
      lastBytes_of_bytesOperand hread, Option.map_some]
  | mix w a1 a2 a3 a4 blk =>
    obtain rfl := of_decide_eq_true (Bool.and_eq_true_iff.mp hw).1
    obtain _ | ⟨h1, _ | ⟨h2, _ | ⟨h3, _ | ⟨h4, _ | ⟨hblk, hnil⟩⟩⟩⟩⟩ := h
    cases hnil
    obtain ⟨ws, hscan, hread⟩ := scans_bytes hblk
    refine ⟨[[.word _], [.word _], [.word _], [.word _], ws], .cons (scans_numeral h1) (.cons (scans_numeral h2)
      (.cons (scans_numeral h3) (.cons (scans_numeral h4) (.cons hscan .nil)))), ?_⟩
    simp only [Instr.command, commandOperands, commaTokens, List.singleton_append, lanesOperands_numerals h1 h2 h3 h4,
      lastBytes_of_bytesOperand hread, Option.map_some]
  | finalize w a1 a2 a3 a4 tot tail seed =>
    obtain rfl := of_decide_eq_true (Bool.and_eq_true_iff.mp hw).1
    obtain _ | ⟨h1, _ | ⟨h2, _ | ⟨h3, _ | ⟨h4, _ | ⟨htot, _ | ⟨htail, _ | ⟨hseed, hnil⟩⟩⟩⟩⟩⟩⟩ := h
    cases hnil
    obtain ⟨ws, hscan, hread⟩ := scans_bytes htail
    refine ⟨[[.word _], [.word _], [.word _], [.word _], [.word _], ws, [.word _]], .cons (scans_numeral h1)
      (.cons (scans_numeral h2) (.cons (scans_numeral h3) (.cons (scans_numeral h4) (.cons (scans_numeral htot)
      (.cons hscan (.cons (scans_numeral hseed) .nil)))))), ?_⟩
    simp only [Instr.command, commandOperands, commaTokens, List.singleton_append, lanesOperands_numerals h1 h2 h3 h4,
      finalizeOperands, fieldThenComma_numeral htot, hread, commaSeed, (reads_numeral hseed).2, Option.map_some]

/-! ## Lines and programs -/

/-- What the assembler makes of a line that is scanned into a command's name and operand tokens. -/
theorem assembleLine_of_scan {v : Variant} {c : Command} {line : List Char} {ts : List Token}
    (h : scan (.plain []) line = some (.word (commandName c).toList :: ts)) :
    assembleLine v line =
      (commandOperands v c ts).bind fun i => if WellFormed v i then some (some i) else none := by
  simp only [assembleLine, h, commandNamed_commandName]
  cases commandOperands v c ts <;> rfl

theorem assembleLine_of_isLine {v : Variant} {i : Instr} {line : List Char} (hw : WellFormed v i = true)
    (h : i.IsLine line) : assembleLine v line = some (some i) := by
  obtain ⟨texts, operands, comment, before, after, htexts, hoperands, hcomment, hbefore, rfl⟩ := h
  obtain ⟨tokens, hscans, hread⟩ := readAs_of_lineOperands hw htexts
  obtain ⟨hne, hplain⟩ := commandName_plain i.command
  rw [lineName_eq_commandName, assembleLine_of_scan (scan_line hne hplain hoperands hscans hcomment hbefore), hread]
  simp [hw]

theorem assembleLine_of_blank (v : Variant) (gap : Nat) {comment : List Char} (h : IsComment comment) :
    assembleLine v (spaces gap ++ comment) = some none := by
  rw [assembleLine, scan_spaces, scan_comment h]

theorem assemble_of_isProgram {v : Variant} {is : List Instr} {lines : List (List Char)} (h : IsProgram is lines)
    (hw : ∀ i ∈ is, WellFormed v i = true) : assemble v lines = some is := by
  induction h with
  | done => rfl
  | command i line is lines h hs ih =>
    rw [assemble, assembleLine_of_isLine (hw i (by simp)) h, ih fun j hj => hw j (by simp [hj])]
  | blank gap comment is lines h hs ih => rw [assemble, assembleLine_of_blank v gap h, ih hw]

theorem wellFormed_of_assembleLine {v : Variant} {line : List Char} {i : Instr}
    (h : assembleLine v line = some (some i)) : WellFormed v i = true := by
  rw [assembleLine] at h
  split at h
  · cases h
  · cases h
  · split at h
    · cases h
    · split at h
      · cases h
      · split at h
        case isTrue hw =>
          cases h
          exact hw
        case isFalse => cases h
  · cases h

/-- Settles O6: a line is scanned into the command's name and its operands' tokens, which read as the command; what
assembles is well-formed, so its transaction decodes to it. -/
theorem linesAssembleToTheirCommands : Obligations.LinesAssembleToTheirCommands := by
  unfold Obligations.LinesAssembleToTheirCommands
  refine ⟨exists_line, fun v i line => assembleLine_of_isLine, fun v is lines hw h => assemble_of_isProgram h hw,
    fun v line i port h => ?_⟩
  have hw := wellFormed_of_assembleLine h
  exact ⟨hw, decode_encode hw⟩

/-! ## Text that is no line -/

theorem fitField_of_le {n x : Nat} (h : 2 ^ n ≤ x) : fitField n x = none := if_neg (Nat.not_lt.mpr h)

theorem patternField_of_decimal {n x : Nat} {t : List Char} (h : SpellsIn 10 t x) :
    patternField n (.word t) = none := by
  rw [patternField, (head_of_spells_ten h).1]

/-- A numeral in either form that does not fit is no bit pattern. -/
theorem patternField_of_le {n x : Nat} {t : List Char} (h : SpellsNumeral t x) (hx : 2 ^ n ≤ x) :
    patternField n (.word t) = none := by
  rcases h with hhex | hten
  · rw [patternField_of_spells hhex, fitField_of_le hx]
  · exact patternField_of_decimal hten

/-- A line with a one-operand command's name and a word that its field does not read makes no command. -/
theorem assembleLine_of_unread {α : Type} {v : Variant} {c : Command} {read : Token → Option α} {f : α → Instr}
    {name t : List Char} (hname : name = (commandName c).toList ++ [' '])
    (hcommand : ∀ ts, commandOperands v c ts = oneOperand read f ts) (hscan : Scans t [.word t])
    (hread : read (.word t) = none) : assembleLine v (name ++ t) = none := by
  obtain ⟨hne, hplain⟩ := commandName_plain c
  have hline := scan_line (before := 1) (after := 0) hne hplain (.last t) (.cons hscan .nil) (.inl rfl)
    fun _ => Nat.one_pos
  have htext : name ++ t = (commandName c).toList ++ (spaces 1 ++ (t ++ (spaces 0 ++ []))) := by
    simp [hname, spaces]
  rw [htext, assembleLine_of_scan hline, hcommand, commaTokens, oneOperand, hread]
  rfl

/-- So for UPDATE.T and ENCODE.T, which read their operand alike. -/
theorem assembleLine_typed_of_unread {α : Type} {v : Variant} (p : PrimType) {read : Token → Option α}
    {f g : α → Instr} {updateName encodeName t : List Char}
    (hupdate : updateName = (commandName (.update p)).toList ++ [' '])
    (hencode : encodeName = (commandName (.encode p)).toList ++ [' '])
    (hcommand : ∀ ts, commandOperands v (.update p) ts = oneOperand read f ts ∧
      commandOperands v (.encode p) ts = oneOperand read g ts)
    (hscan : Scans t [.word t]) (hread : read (.word t) = none) :
    assembleLine v (updateName ++ t) = none ∧ assembleLine v (encodeName ++ t) = none :=
  ⟨assembleLine_of_unread hupdate (fun ts => (hcommand ts).1) hscan hread,
    assembleLine_of_unread hencode (fun ts => (hcommand ts).2) hscan hread⟩

/-- Settles O54: each line names a command with one operand, and its numeral is a word that the operand's field does not
read. -/
theorem numeralsThatDoNotFitMakeNoCommand : Obligations.NumeralsThatDoNotFitMakeNoCommand := by
  unfold Obligations.NumeralsThatDoNotFitMakeNoCommand
  intro v t x
  refine ⟨fun h => ?_, fun h => ?_⟩
  · have hscan := scans_numeral h
    have hnumeral {n : Nat} (hx : 2 ^ n ≤ x) : numeralField n (.word t) = none :=
      (numeralField_of_spells h).trans (fitField_of_le hx)
    have hsigned {n : Nat} (hx : 2 ^ n ≤ x) : signedField n (.word t) = none :=
      (signedField_of_numeral h).trans (fitField_of_le hx)
    have hbool (hx : 2 ^ 1 ≤ x) : boolField (.word t) = none := (boolField_of_numeral h).trans (fitField_of_le hx)
    refine ⟨fun hx => ⟨?_, ?_⟩, fun hx => ?_, fun hx => ?_, fun hx => and_assoc.mp ⟨?_, ?_⟩,
      fun hx => and_assoc.mp ⟨?_, ?_⟩, fun hx => and_assoc.mp ⟨?_, ?_⟩⟩
    · exact assembleLine_of_unread (c := .create) rfl (fun _ => rfl) hscan (hnumeral hx)
    · exact assembleLine_of_unread (c := .reset) rfl (fun _ => rfl) hscan (hnumeral hx)
    · exact assembleLine_typed_of_unread .bool rfl rfl (fun _ => ⟨rfl, rfl⟩) hscan (hbool hx)
    · exact assembleLine_typed_of_unread .byte rfl rfl (fun _ => ⟨rfl, rfl⟩) hscan (hsigned hx)
    · exact assembleLine_typed_of_unread .char rfl rfl (fun _ => ⟨rfl, rfl⟩) hscan (hnumeral hx)
    · exact assembleLine_typed_of_unread .short rfl rfl (fun _ => ⟨rfl, rfl⟩) hscan (hsigned hx)
    · exact assembleLine_typed_of_unread .int rfl rfl (fun _ => ⟨rfl, rfl⟩) hscan (hsigned hx)
    · exact assembleLine_typed_of_unread .float rfl rfl (fun _ => ⟨rfl, rfl⟩) hscan (patternField_of_le h hx)
    · exact assembleLine_typed_of_unread .long rfl rfl (fun _ => ⟨rfl, rfl⟩) hscan (hsigned hx)
    · exact assembleLine_typed_of_unread .double rfl rfl (fun _ => ⟨rfl, rfl⟩) hscan (patternField_of_le h hx)
  · have hscan := scans_numeral (.inr h)
    refine and_assoc.mp ⟨?_, ?_⟩
    · exact assembleLine_typed_of_unread .float rfl rfl (fun _ => ⟨rfl, rfl⟩) hscan (patternField_of_decimal h)
    · exact assembleLine_typed_of_unread .double rfl rfl (fun _ => ⟨rfl, rfl⟩) hscan (patternField_of_decimal h)

end Sys2Proof.Machine
end
